-- ==== Sys2Proof/Word.lean ====
section
/-! DEFINITION. The word and byte types of the CORE. Every storage cell is one 16-bit word
(00_scope.md R9); the byte is only the unit in which the model writes memory down (log entry 1). -/

namespace Sys2Proof

/-- One 16-bit word: a memory word, a register, a stack entry, the pc, a character code (R9). -/
abbrev Word := BitVec 16

/-- Half a word, the unit of `Host.Cell` and of the program image (R75). -/
abbrev Byte := BitVec 8

/-- The number of words of the address space, MEM_WORDS (R6). -/
abbrev memWords : Nat := 32768

/-- The greatest literal operand word, and so the greatest word address, LITERAL_MAX (R8). -/
abbrev literalMax : Nat := 32767

/-- The operand word that names register 0, REG_BASE (R8). -/
abbrev regBase : Nat := 32768

/-- The greatest operand word that names a register, REG_BASE + NUM_REGS - 1 (R7, R8). -/
abbrev regLast : Nat := 32775

/-- The arithmetic modulus of add and mult, MODULUS (R8). -/
abbrev modulus : Nat := 32768

end Sys2Proof
end

