-- ==== Sys2Proof/Config.lean ====
section
/-! DEFINITION. The parameters of a CORE (00_scope.md R11 to R14) and the free values the spec leaves
open. A `Config` stands in State as plain data that no step changes, so that a statement about every
state holds for every choice of the open parameters (log entry 2). -/

namespace Sys2Proof

/-- A capacity parameter: `∞`, or a number of entries (R11, R12). -/
inductive Depth where
  | unbounded
  | bounded (entries : Nat)
  deriving DecidableEq, Repr

/-- The parameters that R14 lists with no single fixed architectural value. -/
structure Config where
  /-- STACK_DEPTH, the most entries the stack can hold (R11). -/
  stackDepth : Depth
  /-- INBUF_DEPTH, the most codes the input line buffer can hold, terminator included (R12). -/
  inbufDepth : Depth
  /-- LINE_TERM, the code appended after each input line (R13). -/
  lineTerm   : Word
  deriving DecidableEq, Repr

/-- The parameters as the spec's source has them: an unbounded stack ("`STACK_DEPTH = ∞` reproduces the
source exactly", R11), an unbounded line buffer (R12) and LINE_TERM = 10 (R13). Log entry 2. -/
def Config.source : Config :=
  { stackDepth := .unbounded, inbufDepth := .unbounded, lineTerm := 10 }

/-- FREE VALUE. What byte `n` of memory holds after power-on and before the first load: "a model takes them
as an arbitrary 32768-word parameter" (R301). No body, so nothing can be proved of a value of it.
Log entry 3. -/
opaque Config.powerOnByte : Nat → Byte

/-- FREE VALUE. The words a loader makes of an odd trailing byte of an image, the open parameter
IMAGE_ODD_BYTE (R303). Log entry 4. -/
opaque Config.imageOddByte : Byte → List Word

end Sys2Proof
end

