-- ==== Sys2Proof/Syntax.lean ====
section
/-! DEFINITION. The instructions as terms: one constructor per row of spec/opcode_table.json (30_encoding.md
R109), each with its raw operands, classified as R103 classifies an operand word. -/

namespace Sys2Proof

/-- A register name `r0` to `r7` (R31). -/
abbrev Reg := Fin 8

/-- The three classes of operand word (R103). A word of the class `invalid` has no meaning, but it is part of
an instruction that decodes: the instruction then raises InvalidOperand (R105, R106). -/
inductive Operand where
  /-- An operand word 0..32767: its bits 14:0. -/
  | literal (v : BitVec 15)
  /-- An operand word 32768..32775: the register `w - 32768`. -/
  | register (r : Reg)
  /-- An operand word 32776..65535, kept whole. -/
  | invalid (w : Word)
  deriving DecidableEq, Repr

/-- The 22 instructions (R2, R109), in opcode order. The constructor `inp` is the instruction `in`, whose own
name is a Lean keyword. -/
inductive Instr where
  | halt
  | set (a b : Operand)
  | push (a : Operand)
  | pop (a : Operand)
  | eq (a b c : Operand)
  | gt (a b c : Operand)
  | jmp (a : Operand)
  | jt (a b : Operand)
  | jf (a b : Operand)
  | add (a b c : Operand)
  | mult (a b c : Operand)
  | mod (a b c : Operand)
  | and (a b c : Operand)
  | or (a b c : Operand)
  | not (a b : Operand)
  | rmem (a b : Operand)
  | wmem (a b : Operand)
  | call (a : Operand)
  | ret
  | out (a : Operand)
  | inp (a : Operand)
  | noop
  deriving DecidableEq, Repr

/-- The operands of an instruction in the order a, b, c (R101). -/
def Instr.operands : Instr → List Operand
  | .halt => []
  | .set a b => [a, b]
  | .push a => [a]
  | .pop a => [a]
  | .eq a b c => [a, b, c]
  | .gt a b c => [a, b, c]
  | .jmp a => [a]
  | .jt a b => [a, b]
  | .jf a b => [a, b]
  | .add a b c => [a, b, c]
  | .mult a b c => [a, b, c]
  | .mod a b c => [a, b, c]
  | .and a b c => [a, b, c]
  | .or a b c => [a, b, c]
  | .not a b => [a, b]
  | .rmem a b => [a, b]
  | .wmem a b => [a, b]
  | .call a => [a]
  | .ret => []
  | .out a => [a]
  | .inp a => [a]
  | .noop => []

end Sys2Proof
end

