-- ==== Sys2Proof/WellFormed.lean ====
section
/-! DEFINITION. When a term of Instr is the reading of some instruction words: an operand marked `invalid` must
hold a word of the class invalid (30_encoding.md R103), since the other words have a class of their own.
`literal` and `register` hold only what their types admit, so they need no check. -/

namespace Sys2Proof

/-- The check of one operand: a word kept as `invalid` lies in 32776..65535 (R103). -/
def Operand.wellFormed : Operand → Bool
  | .literal _ => true
  | .register _ => true
  | .invalid w => decide (regLast < w.toNat)

/-- The check of an instruction: every operand passes its own. -/
def Instr.wellFormed (i : Instr) : Bool :=
  i.operands.all Operand.wellFormed

end Sys2Proof
end

