-- ==== Sys2Proof/Decode.lean ====
section
/-! DEFINITION. Reading instruction words (30_encoding.md R100 to R112) and writing them: `decodeAt`, `decode`,
`decodeTableWord`, and the encoder `encode`. -/

namespace Sys2Proof

/-- The class of an operand word (R103): bit 15 clear is a literal, 32768..32775 a register, the rest invalid. -/
def Operand.ofWord (w : Word) : Operand :=
  if w.toNat ≤ literalMax then .literal (w.setWidth 15)
  else if w.toNat ≤ regLast then .register (Fin.ofNat 8 (w.toNat - regBase))
  else .invalid w

/-- The operand word of an operand (R103): a literal is itself, zero-extended (R108); register `i` is
`32768 + i` (R31). -/
def Operand.toWord : Operand → Word
  | .literal v => v.setWidth 16
  | .register r => BitVec.ofNat 16 (regBase + r.val)
  | .invalid w => w

/-- Why words do not decode. -/
inductive DecodeError where
  /-- There is no opcode word to read. -/
  | noOpcode
  /-- The opcode word is 22 or above: IllegalInstruction (R110). -/
  | illegalOpcode (op : Word)
  /-- The opcode word `op` is legal and operand word `k` (1, 2 or 3) is the first that cannot be read (R134). -/
  | noOperand (op : Word) (k : Nat)
  deriving DecidableEq, Repr

/-- Read the operand word at `k` and go on with its class; a word that cannot be read ends the decoding (R134). -/
def operandAt (word : Nat → Option Word) (op : Word) (k : Nat) (cont : Operand → Except DecodeError Instr) :
    Except DecodeError Instr :=
  match word k with
  | none => .error (.noOperand op k)
  | some w => cont (Operand.ofWord w)

/-- Format F1 (R101): one operand word. -/
def formatF1 (word : Nat → Option Word) (op : Word) (mk : Operand → Instr) : Except DecodeError Instr :=
  operandAt word op 1 fun a => .ok (mk a)

/-- Format F2 (R101): two operand words, read in order. -/
def formatF2 (word : Nat → Option Word) (op : Word) (mk : Operand → Operand → Instr) : Except DecodeError Instr :=
  operandAt word op 1 fun a => operandAt word op 2 fun b => .ok (mk a b)

/-- Format F3 (R101): three operand words, read in order. -/
def formatF3 (word : Nat → Option Word) (op : Word) (mk : Operand → Operand → Operand → Instr) :
    Except DecodeError Instr :=
  operandAt word op 1 fun a => operandAt word op 2 fun b => operandAt word op 3 fun c => .ok (mk a b c)

/-- The opcode map (R109), on the opcode word already read: the operand words are asked for one by one, in order, and
never more than the opcode's count ("no operand prefetch beyond the fixed count", R100). -/
def decodeOp (word : Nat → Option Word) (op : Word) : Except DecodeError Instr :=
  match op.toNat with
  | 0 => .ok .halt
  | 1 => formatF2 word op .set
  | 2 => formatF1 word op .push
  | 3 => formatF1 word op .pop
  | 4 => formatF3 word op .eq
  | 5 => formatF3 word op .gt
  | 6 => formatF1 word op .jmp
  | 7 => formatF2 word op .jt
  | 8 => formatF2 word op .jf
  | 9 => formatF3 word op .add
  | 10 => formatF3 word op .mult
  | 11 => formatF3 word op .mod
  | 12 => formatF3 word op .and
  | 13 => formatF3 word op .or
  | 14 => formatF2 word op .not
  | 15 => formatF2 word op .rmem
  | 16 => formatF2 word op .wmem
  | 17 => formatF1 word op .call
  | 18 => .ok .ret
  | 19 => formatF1 word op .out
  | 20 => formatF1 word op .inp
  | 21 => .ok .noop
  | _ => .error (.illegalOpcode op)

/-- Decode from a source of words: `word k` is the k-th word after the opcode's place, or none where there is no such
word. The opcode word is compared whole and never resolved (R102). The machine fetches with it (memory from the pc on)
and `decode` reads a list with it. -/
def decodeAt (word : Nat → Option Word) : Except DecodeError Instr :=
  match word 0 with
  | none => .error .noOpcode
  | some op => decodeOp word op

/-- The opcode of an instruction (R109). -/
def Instr.opcode : Instr → Word
  | .halt => 0
  | .set _ _ => 1
  | .push _ => 2
  | .pop _ => 3
  | .eq _ _ _ => 4
  | .gt _ _ _ => 5
  | .jmp _ => 6
  | .jt _ _ => 7
  | .jf _ _ => 8
  | .add _ _ _ => 9
  | .mult _ _ _ => 10
  | .mod _ _ _ => 11
  | .and _ _ _ => 12
  | .or _ _ _ => 13
  | .not _ _ => 14
  | .rmem _ _ => 15
  | .wmem _ _ => 16
  | .call _ => 17
  | .ret => 18
  | .out _ => 19
  | .inp _ => 20
  | .noop => 21

/-- The length of an instruction in words: the opcode word and its operand words (R100). -/
def Instr.length (i : Instr) : Nat := 1 + i.operands.length

/-- The words of an instruction: the opcode word and the operand words in the order a, b, c (R100, R101). -/
def encode (i : Instr) : List Word :=
  i.opcode :: i.operands.map Operand.toWord

/-- Decode the instruction at the head of a list of words, and give the words after it. -/
def decode (ws : List Word) : Except DecodeError (Instr × List Word) :=
  match decodeAt (fun k => ws[k]?) with
  | .error e => .error e
  | .ok i => .ok (i, ws.drop i.length)

/-- The `n` lowest 16-bit words of a number, the least significant first. -/
def wordsOfNat : Nat → Nat → List Word
  | 0, _ => []
  | n + 1, w => BitVec.ofNat 16 w :: wordsOfNat n (w / 65536)

/-- The words of an instruction as spec/opcode_table.json numbers its bits: bit 0 is the least significant bit of the
first word; bits from `nbits` up are 0; four words, the longest instruction (R10). -/
def tableWords (nbits w : Nat) : List Word :=
  wordsOfNat 4 (w % 2 ^ nbits)

/-- The instruction the decoder reads from the bits `w` of a table row. -/
def decodeTableWord (nbits w : Nat) : Option Instr :=
  match decode (tableWords nbits w) with
  | .error _ => none
  | .ok (i, _) => some i

/-- The words of a program image given as bytes: byte `2i` is bits 7:0 of word `i` and byte `2i+1` its bits 15:8
(R75, R303). What becomes of an odd trailing byte is the free value `Config.imageOddByte`. -/
def imageOfBytes : List Byte → List Word
  | [] => []
  | [b] => Config.imageOddByte b
  | lo :: hi :: rest => (hi ++ lo) :: imageOfBytes rest

end Sys2Proof
end

