-- ==== Sys2Proof/Machine/State.lean ====
section
/-! DEFINITION. The state of the CORE as plain data (10_state.md R30), the reasons a step can stop, and the state
right after reset (R57). -/

namespace Sys2Proof.Machine

/-- The six run states (R44). -/
inductive RunState where
  | idle
  | running
  | waitInput
  | halted
  | failed
  | aborted
  deriving DecidableEq, Repr

/-- Why a run halted (R47). -/
inductive HaltCause where
  | none
  | haltInstr
  | retEmpty
  | pcRange
  deriving DecidableEq, Repr

/-- The six fault causes of the CORE, and no fault (R48, R260). -/
inductive FaultCause where
  | none
  | outOfBounds
  | stackUnderflow
  | illegalInstruction
  | invalidOperand
  | divideByZero
  | stackOverflow
  deriving DecidableEq, Repr

/-- What the bytes that memory does not list read as: still as power-on left them, or zero since a load, whose
zero padding covers all memory (R301, R302). -/
inductive MemBase where
  | powerOn
  | zeroed
  deriving DecidableEq, Repr

/-- The 32768 words of memory (R70), as cells of one byte: byte `2a` holds bits 7:0 of word `a` and byte `2a+1` its
bits 15:8, the layout of the program image (R75). Log entry 1. -/
structure Memory where
  base  : MemBase
  cells : List Host.Cell
  deriving DecidableEq, Repr

/-- What the host does to the CORE through its control, load and input ports (R308). -/
inductive HostMove where
  /-- Reset (R300). -/
  | reset
  /-- Load a program image (R302). -/
  | load (image : List Word)
  /-- Preload a register (R305). -/
  | preload (r : Reg) (v : Word)
  /-- Start the run (R304). -/
  | start
  /-- Abort the run (R272). -/
  | abort
  /-- Deliver a line of codes, without terminator, at the CORE's next wait for input (R234, R236). -/
  | deliver (line : List Word)
  /-- Let the CORE take one step before the next move. -/
  | yield
  deriving DecidableEq, Repr

/-- The state of the machine. The first twelve fields are the CORE's architectural state, exactly the rows of R30; the
last four are the MODEL's own (log entries 2, 5 and 6). -/
structure State where
  /-- The program counter (R35). -/
  pc          : Word
  /-- The registers x[0]..x[7] (R31). -/
  regs        : Vector Word 8
  /-- The stack `S`, oldest entry first (R40). -/
  stack       : List Word
  /-- The memory `M` (R54, R70). -/
  mem         : Memory
  /-- The input line buffer `IB`, next code first (R43). -/
  inBuf       : List Word
  /-- The run state `RS` (R44). -/
  rs          : RunState
  /-- HALT_CAUSE (R47). -/
  haltCause   : HaltCause
  /-- FAULT_CAUSE (R48). -/
  faultCause  : FaultCause
  /-- FAULT_PC (R49). -/
  faultPc     : Word
  /-- FAULT_OPCODE (R50). -/
  faultOpcode : Word
  /-- FAULT_INFO (R51). -/
  faultInfo   : Word
  /-- FAULT_OPIDX (R52). -/
  faultOpIdx  : BitVec 2
  /-- MODEL: the parameters of this CORE (R14). No step changes them. -/
  cfg         : Config
  /-- MODEL: the codes emitted on the output port in this run, oldest first (R232, R316). -/
  emitted     : List Word
  /-- MODEL: the lines delivered in this run, oldest first (R316). -/
  delivered   : List (List Word)
  /-- MODEL: the host's moves to come, first move first (R308, R310). -/
  script      : List HostMove
  deriving DecidableEq, Repr

/-- Why a step gives no next state with a fault of the MODEL. (The six faults of the CORE are not here: they are next
states, with RS = FAILED.) -/
inductive Fault where
  /-- Raised by `step` where a RUNNING core's pc is above 32767. No run reaches such a state (R143), and R133 gives its
  opcode fetch no meaning. SAFE: the model stops. Log entry 7. -/
  | fetchOutOfRange
  deriving DecidableEq, Repr

/-- Why a step is refused. -/
inductive Refusal where
  /-- Raised by `exec` for an instruction that has no meaning yet. SAFE. -/
  | notModelled (mnemonic : String)
  /-- Raised by `step` where the host delivers a line with `|L| + 1 > INBUF_DEPTH`, a move R310 gives no host and whose
  effect no rule states. SAFE: the model stops. Log entry 8. -/
  | lineTooLong
  deriving DecidableEq, Repr

/-- The outcome of a step or of an instruction. -/
abbrev Result := Host.Outcome State Fault Refusal

/-- Memory after power-on, before any load: every byte is its free value (R301). Log entry 3. -/
def Memory.powerOn : Memory := { base := .powerOn, cells := [] }

/-- Right after reset (R57, R300), with given parameters and memory: reset leaves memory as it is (R301). -/
def State.afterReset (cfg : Config) (mem : Memory) : State :=
  { pc := 0
    regs := Vector.replicate 8 0
    stack := []
    mem := mem
    inBuf := []
    rs := .idle
    haltCause := .none
    faultCause := .none
    faultPc := 0
    faultOpcode := 0
    faultInfo := 0
    faultOpIdx := 0
    cfg := cfg
    emitted := []
    delivered := []
    script := [] }

/-- Power-on reset of a CORE with the source's parameters: every field at the value of R57, memory as power-on left it,
no move of the host to come. -/
def State.reset : State :=
  State.afterReset Config.source Memory.powerOn

end Sys2Proof.Machine
end

