-- ==== Sys2Proof/Machine/Memory.lean ====
section
/-! DEFINITION. Reading and writing memory (20_memory.md R70 to R89): bytes of the cell list, words, the range check,
and the load. -/

namespace Sys2Proof.Machine

/-- What byte `n` reads as where memory lists no cell for it (R80, R301). -/
def MemBase.unlisted (b : MemBase) (n : Nat) : Byte :=
  match b with
  | .powerOn => Config.powerOnByte n
  | .zeroed => 0#8

/-- The cell listed for byte `n`, if there is one. -/
def findCell (n : Nat) : List Host.Cell → Option Byte
  | [] => none
  | (k, v) :: rest => if k = n then some v else findCell n rest

/-- The cells without those of byte `n`. -/
def dropCell (n : Nat) (cells : List Host.Cell) : List Host.Cell :=
  cells.filter fun c => decide (c.1 ≠ n)

/-- Put a cell before the first one of a higher byte. -/
def insertCell (n : Nat) (v : Byte) : List Host.Cell → List Host.Cell
  | [] => [(n, v)]
  | (k, w) :: rest => if k < n then (k, w) :: insertCell n v rest else (n, v) :: (k, w) :: rest

/-- Byte `n` of memory. -/
def Memory.readByte (m : Memory) (n : Nat) : Byte :=
  match findCell n m.cells with
  | some v => v
  | none => m.base.unlisted n

/-- Set byte `n`, keeping the canonical form: a byte that reads as unlisted is not listed. -/
def Memory.writeByte (m : Memory) (n : Nat) (v : Byte) : Memory :=
  if v = m.base.unlisted n then { m with cells := dropCell n m.cells }
  else { m with cells := insertCell n v (dropCell n m.cells) }

/-- Word `a` of memory: bits 7:0 in byte `2a`, bits 15:8 in byte `2a+1` (R75). -/
def Memory.readWord (m : Memory) (a : Nat) : Word :=
  m.readByte (2 * a + 1) ++ m.readByte (2 * a)

/-- Set word `a` of memory. -/
def Memory.writeWord (m : Memory) (a : Nat) (v : Word) : Memory :=
  (m.writeByte (2 * a) (v.extractLsb' 0 8)).writeByte (2 * a + 1) (v.extractLsb' 8 8)

/-- `MemRead(addr, 1)` (R72): none stands for OutOfBounds. -/
def Memory.memRead (m : Memory) (addr : Word) : Option Word :=
  if addr.toNat > literalMax then none else some (m.readWord addr.toNat)

/-- `MemWrite(addr, 1, v)` (R73): none stands for OutOfBounds; nothing is written then. -/
def Memory.memWrite (m : Memory) (addr v : Word) : Option Memory :=
  if addr.toNat > literalMax then none else some (m.writeWord addr.toNat v)

/-- The cell of byte `n`, listed only if it is not zero. -/
def cellUnlessZero (n : Nat) (v : Byte) : List Host.Cell :=
  if v = 0#8 then [] else [(n, v)]

/-- The cells of an image whose first word is word `a`. -/
def imageCells : Nat → List Word → List Host.Cell
  | _, [] => []
  | a, w :: rest =>
    cellUnlessZero (2 * a) (w.extractLsb' 0 8) ++ cellUnlessZero (2 * a + 1) (w.extractLsb' 8 8) ++ imageCells (a + 1) rest

/-- Memory after the load of an image of at most 32768 words: the image, then zeros (R80, R302). -/
def Memory.ofImage (image : List Word) : Memory :=
  { base := .zeroed, cells := imageCells 0 image }

/-- The cells rise strictly from byte `lo` on, lie below `2 * 32768`, and none holds what its byte reads as unlisted. -/
def cellsWf (b : MemBase) : Nat → List Host.Cell → Bool
  | _, [] => true
  | lo, (k, v) :: rest =>
    decide (lo ≤ k) && decide (k < 2 * memWords) && decide (v ≠ b.unlisted k) && cellsWf b (k + 1) rest

/-- The canonical form of memory: equal memories are equal data. -/
def Memory.wf (m : Memory) : Bool :=
  cellsWf m.base 0 m.cells

end Sys2Proof.Machine
end

