-- ==== Sys2Proof/Machine/Ops.lean ====
section
/-! DEFINITION. The shared operations on the state: registers, stack, input buffer, output port, the pc update with its
range check, halting, waiting, and taking a fault (10_state.md, 40_dispatch.md R137 to R141, 46_io.md, 60_exceptions.md
R268). There is no return from a fault (R270): FAILED is left only by the host's reset. -/

namespace Sys2Proof.Machine

/-- `x[r]` (R31). -/
def State.getReg (s : State) (r : Reg) : Word := s.regs[r]

/-- `x[r] <- v` (R31). All eight registers behave identically (R32). -/
def State.setReg (r : Reg) (v : Word) (s : State) : State := { s with regs := s.regs.set r v }

/-- Whether a sequence of `n` entries has reached a capacity (R40: `|S| == STACK_DEPTH`, never for `∞`). -/
def depthFull (d : Depth) (n : Nat) : Bool :=
  match d with
  | .unbounded => false
  | .bounded entries => n == entries

/-- Whether a capacity admits `n` entries (R234: `|L| + 1 ≤ INBUF_DEPTH`). -/
def depthAdmits (d : Depth) (n : Nat) : Bool :=
  match d with
  | .unbounded => true
  | .bounded entries => decide (n ≤ entries)

/-- `Push(v)` (R40): none stands for StackOverflow. -/
def State.pushStack (v : Word) (s : State) : Option State :=
  if depthFull s.cfg.stackDepth s.stack.length then none else some { s with stack := s.stack ++ [v] }

/-- `Pop()` (R41): the last entry and the state without it; none stands for the empty stack, which pop and ret tell
apart at the call. -/
def State.popStack (s : State) : Option (Word × State) :=
  match s.stack.getLast? with
  | none => none
  | some v => some (v, { s with stack := s.stack.dropLast })

/-- `IBTake()` (R237): the first code and the state without it; none where `IB` is empty. -/
def State.takeInput (s : State) : Option (Word × State) :=
  match s.inBuf with
  | [] => none
  | ch :: rest => some (ch, { s with inBuf := rest })

/-- `emit(v)` (R232): one code on the output port. -/
def State.emit (v : Word) (s : State) : State := { s with emitted := s.emitted ++ [v] }

/-- `wait_input()` (R236): nothing but RS changes. -/
def State.waitForInput (s : State) : State := { s with rs := .waitInput }

/-- `halt(cause)` (R140): nothing but RS and HALT_CAUSE changes. -/
def State.haltRun (cause : HaltCause) (s : State) : State := { s with rs := .halted, haltCause := cause }

/-- The pc update and the range check after it (R139, R141): a pc above 32767 is kept and halts the run. -/
def State.setPc (target : Word) (s : State) : State :=
  if target.toNat ≤ literalMax then { s with pc := target }
  else State.haltRun .pcRange { s with pc := target }

/-- The sequential pc update of an instruction of `n` words (R36, R139). -/
def State.advance (n : Word) (s : State) : State := State.setPc (s.pc + n) s

/-- `raise <Cause>(info)` (R268): TAKING A FAULT. The run fails, the fault registers record it, and nothing else changes.
`op` is the opcode word at the pc, `idx` the operand the fault is tied to, or 0. -/
def State.raise (cause : FaultCause) (op info : Word) (idx : BitVec 2) (s : State) : State :=
  { s with
    rs := .failed
    faultCause := cause
    faultPc := s.pc
    faultOpcode := op
    faultInfo := info
    faultOpIdx := idx }

/-- Raise a fault as the outcome of a step. The step commits nothing else (R138). -/
def fail (cause : FaultCause) (op info : Word) (idx : BitVec 2) (s : State) : Result :=
  .next (s.raise cause op info idx)

end Sys2Proof.Machine
end

