-- ==== Sys2Proof/Machine/Operands.lean ====
section
/-! DEFINITION. The two roles of an operand (30_encoding.md R104): a value operand is resolved (R105), a destination
operand names the register to write (R106). `withValue` and `withDest` are phase 3 of a step (40_dispatch.md R135): each
checks one operand and goes on, or raises InvalidOperand with the word and its position (R107). -/

namespace Sys2Proof.Machine

/-- `resolve(w)` (R105): a literal is itself, zero-extended (R108); a register gives its 16-bit content, which is not
resolved again; none stands for InvalidOperand. -/
def resolve (s : State) : Operand → Option Word
  | .literal v => some (v.setWidth 16)
  | .register r => some (s.getReg r)
  | .invalid _ => none

/-- `dest(w)` (R106): a register names itself; none stands for InvalidOperand. The register is not read. -/
def dest : Operand → Option Reg
  | .literal _ => none
  | .register r => some r
  | .invalid _ => none

/-- Resolve operand number `k` of the instruction with opcode `op`, or raise InvalidOperand. -/
def withValue (op : Word) (k : BitVec 2) (o : Operand) (s : State) (cont : Word → Result) : Result :=
  match resolve s o with
  | some v => cont v
  | none => fail .invalidOperand op o.toWord k s

/-- Decode operand number `k` as a destination, or raise InvalidOperand. -/
def withDest (op : Word) (k : BitVec 2) (o : Operand) (s : State) (cont : Reg → Result) : Result :=
  match dest o with
  | some r => cont r
  | none => fail .invalidOperand op o.toWord k s

/-- The shape D V V (R104): operand checks in the order a, b, c, all before any effect (R107). -/
def withDVV (i : Instr) (a b c : Operand) (s : State) (cont : Reg → Word → Word → Result) : Result :=
  withDest i.opcode 1 a s fun r =>
  withValue i.opcode 2 b s fun vb =>
  withValue i.opcode 3 c s fun vc => cont r vb vc

/-- The shape D V (R104). -/
def withDV (i : Instr) (a b : Operand) (s : State) (cont : Reg → Word → Result) : Result :=
  withDest i.opcode 1 a s fun r =>
  withValue i.opcode 2 b s fun vb => cont r vb

/-- The shape V V (R104). -/
def withVV (i : Instr) (a b : Operand) (s : State) (cont : Word → Word → Result) : Result :=
  withValue i.opcode 1 a s fun va =>
  withValue i.opcode 2 b s fun vb => cont va vb

/-- The shape D (R104). -/
def withD (i : Instr) (a : Operand) (s : State) (cont : Reg → Result) : Result :=
  withDest i.opcode 1 a s cont

/-- The shape V (R104). -/
def withV (i : Instr) (a : Operand) (s : State) (cont : Word → Result) : Result :=
  withValue i.opcode 1 a s cont

/-- Write a result to a register and advance past `n` words. -/
def writeResult (r : Reg) (v : Word) (n : Word) (s : State) : Result :=
  .next ((s.setReg r v).advance n)

end Sys2Proof.Machine
end

