-- ==== Sys2Proof/Machine/ArithLogic.lean ====
section
/-! DEFINITION. add, mult, mod, and, or and not (44_arithmetic_logic.md). The arithmetic is computed exactly on
naturals and narrowed at the end. -/

namespace Sys2Proof.Machine

/-- `(b + c) mod 32768` (R200). -/
def sumWord (b c : Word) : Word := BitVec.ofNat 16 ((b.toNat + c.toNat) % modulus)

/-- `(b * c) mod 32768` (R201). -/
def productWord (b c : Word) : Word := BitVec.ofNat 16 ((b.toNat * c.toNat) % modulus)

/-- `b mod c` on naturals, for a nonzero `c` (R202). -/
def remainderWord (b c : Word) : Word := BitVec.ofNat 16 (b.toNat % c.toNat)

/-- `b ^ 0x7FFF`: bits 14:0 inverted, bit 15 as it was (R205). -/
def notWord (b : Word) : Word := b ^^^ 0x7FFF

/-- add (R200). -/
def execAdd (a b c : Operand) (s : State) : Result :=
  withDVV (.add a b c) a b c s fun r vb vc => writeResult r (sumWord vb vc) 4 s

/-- mult (R201). -/
def execMult (a b c : Operand) (s : State) : Result :=
  withDVV (.mult a b c) a b c s fun r vb vc => writeResult r (productWord vb vc) 4 s

/-- mod (R202): a zero divisor raises DivideByZero with the dividend. -/
def execMod (a b c : Operand) (s : State) : Result :=
  withDVV (.mod a b c) a b c s fun r vb vc =>
    if vc = 0 then fail .divideByZero (Instr.mod a b c).opcode vb 0 s
    else writeResult r (remainderWord vb vc) 4 s

/-- and, on all 16 bits (R203). -/
def execAnd (a b c : Operand) (s : State) : Result :=
  withDVV (.and a b c) a b c s fun r vb vc => writeResult r (vb &&& vc) 4 s

/-- or, on all 16 bits (R204). -/
def execOr (a b c : Operand) (s : State) : Result :=
  withDVV (.or a b c) a b c s fun r vb vc => writeResult r (vb ||| vc) 4 s

/-- not (R205). -/
def execNot (a b : Operand) (s : State) : Result :=
  withDV (.not a b) a b s fun r vb => writeResult r (notWord vb) 3 s

end Sys2Proof.Machine
end

