-- ==== Sys2Proof/Machine/CharIo.lean ====
section
/-! DEFINITION. out and in (46_io.md). -/

namespace Sys2Proof.Machine

/-- out (R230): any 16-bit code is emitted unchanged. -/
def execOut (a : Operand) (s : State) : Result :=
  withV (.out a) a s fun v => .next ((s.emit v).advance 2)

/-- in (R231): the destination is checked before the buffer; with an empty buffer the step ends in WAIT_INPUT and
changes nothing else (R236). -/
def execIn (a : Operand) (s : State) : Result :=
  withD (.inp a) a s fun r =>
    match s.takeInput with
    | none => .next s.waitForInput
    | some (ch, s1) => writeResult r ch 2 s1

end Sys2Proof.Machine
end

