-- ==== Sys2Proof/Machine/Flags.lean ====
section
/-! DEFINITION. The CORE has no flags (10_state.md R39): no instruction writes a flag, and no carry or overflow is kept.
What other machines keep in flags is here a value in a register (eq, gt) or a test of a value (jt, jf). -/

namespace Sys2Proof.Machine

/-- The word that eq and gt write for a comparison: 1 or 0 (R39, R170, R171). -/
def truthWord (t : Bool) : Word := if t then 1 else 0

/-- The comparison of eq, on all 16 bits (R170). -/
def equalWords (b c : Word) : Bool := b == c

/-- The comparison of gt, unsigned on all 16 bits (R171). -/
def greaterWord (b c : Word) : Bool := decide (b.toNat > c.toNat)

/-- The test of jt and jf: any nonzero value is true (R182, R183). -/
def nonZero (v : Word) : Bool := v != 0

end Sys2Proof.Machine
end

