-- ==== Sys2Proof/Machine/Comparison.lean ====
section
/-! DEFINITION. eq and gt (42_comparison.md). -/

namespace Sys2Proof.Machine

/-- eq (R170). -/
def execEq (a b c : Operand) (s : State) : Result :=
  withDVV (.eq a b c) a b c s fun r vb vc => writeResult r (truthWord (equalWords vb vc)) 4 s

/-- gt (R171). -/
def execGt (a b c : Operand) (s : State) : Result :=
  withDVV (.gt a b c) a b c s fun r vb vc => writeResult r (truthWord (greaterWord vb vc)) 4 s

end Sys2Proof.Machine
end

