-- ==== Sys2Proof/Machine/ControlTransfer.lean ====
section
/-! DEFINITION. halt, jmp, jt, jf, call, ret and noop (43_control_transfer.md). A target above 32767 is no fault: the
range check of `State.setPc` halts the run (40_dispatch.md R141; 90_conflicts.md C1). -/

namespace Sys2Proof.Machine

/-- halt (R180): the pc stays at the halt. -/
def execHalt (s : State) : Result :=
  .next (s.haltRun .haltInstr)

/-- jmp (R181). -/
def execJmp (a : Operand) (s : State) : Result :=
  withV (.jmp a) a s fun t => .next (s.setPc t)

/-- jt (R182): both operands are checked whether or not the branch is taken (R107). -/
def execJt (a b : Operand) (s : State) : Result :=
  withVV (.jt a b) a b s fun cnd t => .next (if nonZero cnd then s.setPc t else s.advance 3)

/-- jf (R183): both operands are checked whether or not the branch is taken (R107). -/
def execJf (a b : Operand) (s : State) : Result :=
  withVV (.jf a b) a b s fun cnd t => .next (if nonZero cnd then s.advance 3 else s.setPc t)

/-- call (R184): the target is resolved before the return address `pc + 2` is pushed. -/
def execCall (a : Operand) (s : State) : Result :=
  withV (.call a) a s fun t =>
    match s.pushStack (s.pc + 2) with
    | none => fail .stackOverflow (Instr.call a).opcode (s.pc + 2) 0 s
    | some s1 => .next (s1.setPc t)

/-- ret (R185): with an empty stack a graceful halt, never StackUnderflow (90_conflicts.md C11). -/
def execRet (s : State) : Result :=
  match s.popStack with
  | none => .next (s.haltRun .retEmpty)
  | some (t, s1) => .next (s1.setPc t)

/-- noop (R186). -/
def execNoop (s : State) : Result :=
  .next (s.advance 1)

end Sys2Proof.Machine
end

