-- ==== Sys2Proof/Machine/MemoryAccess.lean ====
section
/-! DEFINITION. rmem and wmem (45_memory_access.md). The one addressing mode is absolute (R222). -/

namespace Sys2Proof.Machine

/-- rmem (R220): the raw word is not resolved. -/
def execRmem (a b : Operand) (s : State) : Result :=
  withDV (.rmem a b) a b s fun r addr =>
    match s.mem.memRead addr with
    | none => fail .outOfBounds (Instr.rmem a b).opcode addr 0 s
    | some v => writeResult r v 3 s

/-- wmem (R221): its first operand is a value operand too, so a literal address is legal. -/
def execWmem (a b : Operand) (s : State) : Result :=
  withVV (.wmem a b) a b s fun addr v =>
    match s.mem.memWrite addr v with
    | none => fail .outOfBounds (Instr.wmem a b).opcode addr 0 s
    | some m => .next (State.advance 3 { s with mem := m })

end Sys2Proof.Machine
end

