-- ==== Sys2Proof/Machine/RegisterStack.lean ====
section
/-! DEFINITION. set, push and pop (41_register_stack.md). -/

namespace Sys2Proof.Machine

/-- set (R160). -/
def execSet (a b : Operand) (s : State) : Result :=
  withDV (.set a b) a b s fun r v => writeResult r v 3 s

/-- push (R161). -/
def execPush (a : Operand) (s : State) : Result :=
  withV (.push a) a s fun v =>
    match s.pushStack v with
    | none => fail .stackOverflow (Instr.push a).opcode v 0 s
    | some s1 => .next (s1.advance 2)

/-- pop (R162): an empty stack is a failure, reported only after the destination is checked. -/
def execPop (a : Operand) (s : State) : Result :=
  withD (.pop a) a s fun r =>
    match s.popStack with
    | none => fail .stackUnderflow (Instr.pop a).opcode 0 0 s
    | some (v, s1) => writeResult r v 2 s1

end Sys2Proof.Machine
end

