-- ==== Sys2Proof/Machine/Fetch.lean ====
section
/-! DEFINITION. Phases 1 and 2 of a step (40_dispatch.md R133, R134): fetching the instruction at the pc, and the faults
of fetching; and placing an instruction where the next fetch reads it. -/

namespace Sys2Proof.Machine

/-- The word `k` places after the pc, or none where that address exceeds 32767 (R134). -/
def State.fetchWord (s : State) (k : Nat) : Option Word :=
  if s.pc.toNat + k ≤ literalMax then some (s.mem.readWord (s.pc.toNat + k)) else none

/-- Fetch and decode the instruction at the pc. -/
def State.fetch (s : State) : Except DecodeError Instr :=
  decodeAt s.fetchWord

/-- What a failed fetch does: an opcode above 21 raises IllegalInstruction (R133), an operand word past 32767 raises
OutOfBounds with its address and position (R134). A pc above 32767 has no opcode word to fetch (R143). -/
def fetchFault (e : DecodeError) (s : State) : Result :=
  match e with
  | .noOpcode => .fault .fetchOutOfRange
  | .illegalOpcode op => fail .illegalInstruction op op 0 s
  | .noOperand op k => fail .outOfBounds op (BitVec.ofNat 16 (s.pc.toNat + k)) (BitVec.ofNat 2 k) s

/-- A memory that has been loaded: a memory never loaded becomes that of an empty image (R302). -/
def Memory.ensureLoaded (m : Memory) : Memory :=
  match m.base with
  | .powerOn => Memory.ofImage []
  | .zeroed => m

/-- Store words one after another from word `a` on. -/
def Memory.writeWords (m : Memory) (a : Nat) : List Word → Memory
  | [] => m
  | w :: rest => (m.writeWord a w).writeWords (a + 1) rest

/-- The address from which the next step can fetch four words: the pc, or 0 where the pc leaves no room for them. -/
def State.fetchAddress (s : State) : Word :=
  if s.pc.toNat + 3 ≤ literalMax then s.pc else 0

/-- The state whose very next step runs the instruction words `ws`: RUNNING, the CORE's turn, memory loaded, and the
words at the pc. Log entry 9. -/
def State.placeWords (s : State) (ws : List Word) : State :=
  { s with
    pc := s.fetchAddress
    mem := s.mem.ensureLoaded.writeWords s.fetchAddress.toNat ws
    rs := .running
    script := [] }

end Sys2Proof.Machine
end

