-- ==== Sys2Proof/Machine/HostPort.lean ====
section
/-! DEFINITION. The host's side of the CORE (70_reset_and_hazards.md R300 to R310): its moves, whose turn it is, and
the status and observer ports (10_state.md R46 to R52). -/

namespace Sys2Proof.Machine

/-- Reset, in any run state (R300): every piece of the CORE's state to its reset value; memory is unchanged (R301). -/
def hostReset (s : State) : State :=
  { State.afterReset s.cfg s.mem with script := s.script }

/-- Load (R302): only in IDLE, only an image of at most 32768 words; otherwise nothing happens. -/
def hostLoad (image : List Word) (s : State) : State :=
  if s.rs = .idle ∧ image.length ≤ memWords then { s with mem := Memory.ofImage image } else s

/-- Register preload (R305): only in IDLE. -/
def hostPreload (r : Reg) (v : Word) (s : State) : State :=
  if s.rs = .idle then s.setReg r v else s

/-- Start (R304): only in IDLE. -/
def hostStart (s : State) : State :=
  if s.rs = .idle then { s with rs := .running } else s

/-- Abort (R272): in RUNNING or WAIT_INPUT, at a step boundary; elsewhere nothing happens. -/
def hostAbort (s : State) : State :=
  if s.rs = .running ∨ s.rs = .waitInput then { s with rs := .aborted } else s

/-- Line delivery to a waiting CORE (R236): `IB <- L ++ [LINE_TERM]`, RUNNING. -/
def hostDeliver (line : List Word) (s : State) : Result :=
  if depthAdmits s.cfg.inbufDepth (line.length + 1) then
    .next { s with inBuf := line ++ [s.cfg.lineTerm], rs := .running, delivered := s.delivered ++ [line] }
  else .refused .lineTooLong

/-- One move of the host. -/
def hostMove (m : HostMove) (s : State) : Result :=
  match m with
  | .reset => .next (hostReset s)
  | .load image => .next (hostLoad image s)
  | .preload r v => .next (hostPreload r v s)
  | .start => .next (hostStart s)
  | .abort => .next (hostAbort s)
  | .deliver line => hostDeliver line s
  | .yield => .next s

/-- Whose turn it is, and the moves of the host left after it. -/
inductive Turn where
  | core (rest : List HostMove)
  | host (m : HostMove) (rest : List HostMove)
  deriving DecidableEq, Repr

/-- A line is delivered only in WAIT_INPUT (R234), so a host with a line lets the CORE go on until it waits. Any other
move happens at the step boundary where it stands first; with no move left, and where the host yields, it is the
CORE's turn. Log entry 6. -/
def State.turn (s : State) : Turn :=
  match s.script with
  | [] => .core []
  | .yield :: rest => .core rest
  | .deliver line :: rest => if s.rs = .waitInput then .host (.deliver line) rest else .core (.deliver line :: rest)
  | .reset :: rest => .host .reset rest
  | .load image :: rest => .host (.load image) rest
  | .preload r v :: rest => .host (.preload r v) rest
  | .start :: rest => .host .start rest
  | .abort :: rest => .host .abort rest

/-- The code of a run state (R44). -/
def RunState.code : RunState → BitVec 3
  | .idle => 0
  | .running => 1
  | .waitInput => 2
  | .halted => 3
  | .failed => 4
  | .aborted => 5

/-- The code of a halt cause (R47). -/
def HaltCause.code : HaltCause → BitVec 2
  | .none => 0
  | .haltInstr => 1
  | .retEmpty => 2
  | .pcRange => 3

/-- The code of a fault cause (R48, R260). -/
def FaultCause.code : FaultCause → BitVec 3
  | .none => 0
  | .outOfBounds => 1
  | .stackUnderflow => 2
  | .illegalInstruction => 3
  | .invalidOperand => 4
  | .divideByZero => 5
  | .stackOverflow => 6

/-- The status port (R309): the status register at an address 0..6; its reserved bits read 0 (R46 to R52). That
any other address has no answer is DEDUCED (log entry 11). -/
def statusRead (addr : Nat) (s : State) : Option Word :=
  match addr with
  | 0 => some (s.rs.code.setWidth 16)
  | 1 => some (s.haltCause.code.setWidth 16)
  | 2 => some (s.faultCause.code.setWidth 16)
  | 3 => some s.faultPc
  | 4 => some s.faultOpcode
  | 5 => some s.faultInfo
  | 6 => some (s.faultOpIdx.setWidth 16)
  | _ => none

/-- What the observer port can be asked for (R309). -/
inductive Observation where
  | register (r : Reg)
  | pc
  | stackSize
  | stackEntry (j : Nat)
  | memoryWord (addr : Nat)
  | inBufSize
  deriving DecidableEq, Repr

/-- The observer port (R309). A read is a function of the state at a step boundary and gives no state back, so it has
no side effect. An entry past the stack's end and a word past 32767 have no answer: DEDUCED (log entry 11). -/
def observe (o : Observation) (s : State) : Option Nat :=
  match o with
  | .register r => some (s.getReg r).toNat
  | .pc => some s.pc.toNat
  | .stackSize => some s.stack.length
  | .stackEntry j => s.stack[j]?.map BitVec.toNat
  | .memoryWord addr => if addr ≤ literalMax then some (s.mem.readWord addr).toNat else none
  | .inBufSize => some s.inBuf.length

end Sys2Proof.Machine
end

