-- ==== Sys2Proof/Machine/Step.lean ====
section
/-! DEFINITION. One step of the machine: a move of the host, or a step of the CORE (40_dispatch.md R130 to R146). -/

namespace Sys2Proof.Machine

/-- A step of the CORE (R146). Only a RUNNING core takes a step; in every other run state nothing changes (R132). -/
def coreStep (s : State) : Host.Outcome State Fault Refusal :=
  if s.rs = .running then
    match s.fetch with
    | .ok i => exec i s
    | .error e => fetchFault e s
  else .next s

/-- One step: the host's move where it is the host's turn, else a step of the CORE. -/
def step (s : State) : Host.Outcome State Fault Refusal :=
  match s.turn with
  | .core rest => coreStep { s with script := rest }
  | .host m rest => hostMove m { s with script := rest }

/-- `s` with the instruction whose bits are `w` placed where the next step fetches it. -/
def State.withFetchWord (s : State) (nbits w : Nat) : State :=
  s.placeWords (tableWords nbits w)

end Sys2Proof.Machine
end

