-- ==== Sys2Proof/Safety.lean ====
section
/-! DEFINITION. What counts as a sound state, a safe step and an ended run, in the terms the statements use. -/

namespace Sys2Proof.Machine

/-- A capacity is a positive integer or `∞` (R11, R12). -/
def depthLegal (d : Depth) : Prop :=
  match d with
  | .unbounded => True
  | .bounded entries => 1 ≤ entries

/-- The invariant of the machine, in every run state. -/
structure State.Inv (s : State) : Prop where
  /-- Memory keeps its canonical form. -/
  memCanonical : s.mem.wf = true
  /-- The parameters are legal (R11, R12). -/
  paramsLegal : depthLegal s.cfg.stackDepth ∧ depthLegal s.cfg.inbufDepth
  /-- `|S| ≤ STACK_DEPTH` (R40). -/
  stackBounded : depthAdmits s.cfg.stackDepth s.stack.length = true
  /-- `|IB| ≤ INBUF_DEPTH` (R43). -/
  inBufBounded : depthAdmits s.cfg.inbufDepth s.inBuf.length = true
  /-- The pc lies above 32767 exactly where it has halted the run (R35, R141, R143). -/
  pcRange : literalMax < s.pc.toNat ↔ s.haltCause = .pcRange
  /-- In IDLE nothing has run yet (R57). -/
  idleAsReset : s.rs = .idle → s.pc = 0 ∧ s.stack = [] ∧ s.inBuf = []
  /-- A waiting core stands at the `in` that waits, with an empty buffer (R143, R236). -/
  waitsAtIn : s.rs = .waitInput → s.inBuf = [] ∧ s.mem.readWord s.pc.toNat = 20
  /-- HALT_CAUSE is written only on entry to HALTED (R47, R53). -/
  haltCauseIff : s.haltCause ≠ .none ↔ s.rs = .halted
  /-- FAULT_CAUSE is written only on entry to FAILED (R48, R53). -/
  faultCauseIff : s.faultCause ≠ .none ↔ s.rs = .failed
  /-- The other fault registers read 0 unless the run has failed (R53). -/
  faultRegsZero : s.rs ≠ .failed → s.faultPc = 0 ∧ s.faultOpcode = 0 ∧ s.faultInfo = 0 ∧ s.faultOpIdx = 0
  /-- After a fault, FAULT_PC is the pc and FAULT_OPCODE the word that stands there (R49, R50, R268). -/
  faultAtPc : s.rs = .failed → s.faultPc = s.pc ∧ s.faultOpcode = s.mem.readWord s.pc.toNat

/-- A run has ended (R316). -/
def State.ended (s : State) : Bool :=
  match s.rs with
  | .halted => true
  | .failed => true
  | .aborted => true
  | .idle => false
  | .running => false
  | .waitInput => false

/-- A safe outcome: a next state, not a fault of the model and not a refusal. -/
def safeOutcome (o : Result) : Prop := ∃ t, o = .next t

end Sys2Proof.Machine
end

