-- ==== Sys2Proof/Certificates/Slice0/Obligations.lean ====
section
/-! DEFINITION. The statements for the provers. `Sys2Proof.Claim` holds the words they are written in: transcriptions of
the spec's pseudocode on raw operand words and on numbers, made apart from the model's own operations. -/

namespace Sys2Proof.Claim

open Sys2Proof.Machine

/-- The state after `raise` (R268): the run state and the five fault registers, nothing else. -/
def failed (cause : FaultCause) (op info : Word) (k : Nat) (s : State) : State :=
  { s with
    rs := .failed
    faultCause := cause
    faultPc := s.pc
    faultOpcode := op
    faultInfo := info
    faultOpIdx := BitVec.ofNat 2 k }

/-- The pc update and its range check (R139, R141). -/
def landed (target : Word) (s : State) : State :=
  if 32767 < target.toNat then { s with pc := target, rs := .halted, haltCause := .pcRange }
  else { s with pc := target }

/-- Register `r` written with `v` (R31). -/
def wrote (r : Reg) (v : Word) (s : State) : State := { s with regs := s.regs.set r v }

/-- `|S| = STACK_DEPTH` (R40); never for `∞`. -/
def stackFull (s : State) : Prop := s.cfg.stackDepth = .bounded s.stack.length

/-- What a value operand resolves to (R105). No value is the meaning of an invalid operand. -/
def means (s : State) (o : Operand) (v : Word) : Prop :=
  match o with
  | .literal n => v.toNat = n.toNat
  | .register r => v = s.regs[r]
  | .invalid _ => False

/-- The raw operand word `k` at the pc (R18). -/
def operandWord (s : State) (k : Nat) : Word := s.mem.readWord (s.pc.toNat + k)

/-- The register index of a register operand word, `w - 32768` (R31). -/
def registerOf (w : Word) : Reg := Fin.ofNat 8 (w.toNat - 32768)

/-- Phase 2 of an instruction with `n` operand words (R134): past 32767, the first operand word that does not exist
raises OutOfBounds with its address, 32768, and its position. -/
def fetching (op : Word) (n : Nat) (s : State) (rest : State) : State :=
  if 32767 < s.pc.toNat + n then failed .outOfBounds op 32768 (32768 - s.pc.toNat) s else rest

/-- Phase 3 for a destination operand in place `k` (R106). -/
def destAt (op : Word) (k : Nat) (s : State) (cont : Reg → State) : State :=
  if 32768 ≤ (operandWord s k).toNat ∧ (operandWord s k).toNat ≤ 32775 then cont (registerOf (operandWord s k))
  else failed .invalidOperand op (operandWord s k) k s

/-- Phase 3 for a value operand in place `k` (R105). -/
def valueAt (op : Word) (k : Nat) (s : State) (cont : Word → State) : State :=
  if (operandWord s k).toNat ≤ 32767 then cont (operandWord s k)
  else if (operandWord s k).toNat ≤ 32775 then cont s.regs[registerOf (operandWord s k)]
  else failed .invalidOperand op (operandWord s k) k s

/-- It is a RUNNING core's turn, at an opcode word `op`; `s1` is the state the CORE steps from. -/
def runsAt (op : Word) (s s1 : State) : Prop :=
  s.rs = .running ∧ s.pc.toNat ≤ 32767 ∧ s.mem.readWord s.pc.toNat = op ∧
  ∃ rest, s.turn = .core rest ∧ s1 = { s with script := rest }

/-- How many operand words an opcode has (R112). -/
def operandCount (op : Nat) : Nat :=
  if op ∈ [0, 18, 21] then 0
  else if op ∈ [2, 3, 6, 17, 19, 20] then 1
  else if op ∈ [1, 7, 8, 14, 15, 16] then 2
  else 3

/-- The role of an operand (R104). -/
inductive Role where
  | destination
  | value
  deriving DecidableEq, Repr

/-- The roles of an instruction's operands, in the order a, b, c (R104). -/
def roles : Instr → List Role
  | .halt => []
  | .set _ _ => [.destination, .value]
  | .push _ => [.value]
  | .pop _ => [.destination]
  | .eq _ _ _ => [.destination, .value, .value]
  | .gt _ _ _ => [.destination, .value, .value]
  | .jmp _ => [.value]
  | .jt _ _ => [.value, .value]
  | .jf _ _ => [.value, .value]
  | .add _ _ _ => [.destination, .value, .value]
  | .mult _ _ _ => [.destination, .value, .value]
  | .mod _ _ _ => [.destination, .value, .value]
  | .and _ _ _ => [.destination, .value, .value]
  | .or _ _ _ => [.destination, .value, .value]
  | .not _ _ => [.destination, .value]
  | .rmem _ _ => [.destination, .value]
  | .wmem _ _ => [.value, .value]
  | .call _ => [.value]
  | .ret => []
  | .out _ => [.value]
  | .inp _ => [.destination]
  | .noop => []

/-- Whether an operand fails its check (R105, R106). -/
def fails : Role → Operand → Bool
  | .destination, .literal _ => true
  | .destination, .register _ => false
  | .destination, .invalid _ => true
  | .value, .literal _ => false
  | .value, .register _ => false
  | .value, .invalid _ => true

/-- The operands of an instruction with their roles. -/
def checks (i : Instr) : List (Role × Operand) := (roles i).zip i.operands

/-- Byte `n` is one of the two bytes of the word that instruction `i` stores to in state `s`. -/
def stores (i : Instr) (s : State) (n : Nat) : Prop :=
  match i with
  | .wmem a b => ∃ addr v, resolve s a = some addr ∧ resolve s b = some v ∧ addr.toNat ≤ 32767 ∧
      (n = 2 * addr.toNat ∨ n = 2 * addr.toNat + 1)
  | _ => False

/-- The destination register of an instruction, where it has a destination operand that names one (R32). -/
def destination : Instr → Option Reg
  | .set (.register r) _ => some r
  | .pop (.register r) => some r
  | .eq (.register r) _ _ => some r
  | .gt (.register r) _ _ => some r
  | .add (.register r) _ _ => some r
  | .mult (.register r) _ _ => some r
  | .mod (.register r) _ _ => some r
  | .and (.register r) _ _ => some r
  | .or (.register r) _ _ => some r
  | .not (.register r) _ => some r
  | .rmem (.register r) _ => some r
  | .inp (.register r) => some r
  | _ => none

/-- The memory words from the pc to the end of memory, at most four of them. -/
def wordsAtPc (s : State) : List Word :=
  (List.range (min 4 (32768 - s.pc.toNat))).map fun k => s.mem.readWord (s.pc.toNat + k)

end Sys2Proof.Claim

open Sys2Proof Sys2Proof.Machine Sys2Proof.Claim

/-! ### Encoding -/

/-- Decoding the words of a well-formed instruction gives it back, and leaves the words after it. -/
def Obligations.DecodeOfEncode : Prop :=
  ∀ (i : Instr) (rest : List Word), i.wellFormed = true → decode (encode i ++ rest) = .ok (i, rest)

/-- Words that decode are the encoding of the well-formed instruction they decode to, and the words after it. -/
def Obligations.EncodeOfDecode : Prop :=
  ∀ (ws : List Word) (i : Instr) (rest : List Word), decode ws = .ok (i, rest) →
    i.wellFormed = true ∧ encode i ++ rest = ws

/-- The encoding examples of R115. -/
def Obligations.ExampleWordsDecode : Prop :=
  decode [9, 32768, 32769, 4] = .ok (.add (.register 0) (.register 1) (.literal 4), []) ∧
  decode [19, 32768] = .ok (.out (.register 0), []) ∧
  decode [0] = .ok (.halt, []) ∧
  decode [1, 32775, 32767] = .ok (.set (.register 7) (.literal 32767), []) ∧
  decode [7, 32770, 100] = .ok (.jt (.register 2) (.literal 100), []) ∧
  decode [16, 500, 32771] = .ok (.wmem (.literal 500) (.register 3), []) ∧
  decode [22] = .error (.illegalOpcode 22)

/-- R112: the opcode word alone fixes how many words follow it; with fewer, the first missing one is named; an opcode
word above 21 decodes to nothing. -/
def Obligations.LengthFollowsOpcode : Prop :=
  ∀ (op : Word) (ws : List Word),
    (21 < op.toNat → decode (op :: ws) = .error (.illegalOpcode op)) ∧
    (op.toNat ≤ 21 → ws.length < operandCount op.toNat → decode (op :: ws) = .error (.noOperand op (ws.length + 1))) ∧
    (op.toNat ≤ 21 → operandCount op.toNat ≤ ws.length →
      ∃ i, decode (op :: ws) = .ok (i, ws.drop (operandCount op.toNat)) ∧ i.opcode = op ∧
        i.length = 1 + operandCount op.toNat)

/-- R103: every operand word falls into one of three classes, by its value alone. -/
def Obligations.OperandWordClasses : Prop :=
  ∀ w : Word,
    (w.toNat ≤ 32767 → ∃ v : BitVec 15, Operand.ofWord w = .literal v ∧ v.toNat = w.toNat) ∧
    (32768 ≤ w.toNat → w.toNat ≤ 32775 → ∃ r : Reg, Operand.ofWord w = .register r ∧ r.val = w.toNat - 32768) ∧
    (32776 ≤ w.toNat → Operand.ofWord w = .invalid w)

/-! ### Operands -/

/-- R105: resolution of a value operand word, whatever instruction asks for it and whatever it does next. -/
def Obligations.ValueOperandResolves : Prop :=
  ∀ (s : State) (op : Word) (k : Nat) (w : Word) (cont : Word → Result),
    withValue op (BitVec.ofNat 2 k) (Operand.ofWord w) s cont =
      if w.toNat ≤ 32767 then cont w
      else if w.toNat ≤ 32775 then cont s.regs[registerOf w]
      else .next (failed .invalidOperand op w k s)

/-- R106: a destination operand word names a register and reads none. -/
def Obligations.DestinationOperandNamesRegister : Prop :=
  ∀ (s : State) (op : Word) (k : Nat) (w : Word) (cont : Reg → Result),
    withDest op (BitVec.ofNat 2 k) (Operand.ofWord w) s cont =
      if 32768 ≤ w.toNat ∧ w.toNat ≤ 32775 then cont (registerOf w)
      else .next (failed .invalidOperand op w k s)

/-- R107: of the operands that fail their checks, the first in the order a, b, c is reported, with its word and its
position, and nothing else changes: also where the instruction would not use it. -/
def Obligations.FirstInvalidOperandReported : Prop :=
  ∀ (i : Instr) (s : State) (k : Nat) (role : Role) (o : Operand),
    (checks i)[k]? = some (role, o) → fails role o = true →
    (∀ c ∈ (checks i).take k, fails c.1 c.2 = false) →
    exec i s = .next (failed .invalidOperand i.opcode o.toWord (k + 1) s)

/-! ### The step -/

/-- Where it is the CORE's turn and the words at the pc decode to an instruction, a step of a RUNNING core is that
instruction's meaning, and nothing is added to it. Whose turn it is, is the model's own (log entry 6). -/
def Obligations.StepRunsDecoded : Prop :=
  ∀ (s : State) (rest : List HostMove) (i : Instr) (after : List Word),
    s.turn = .core rest → s.rs = .running → decode (wordsAtPc s) = .ok (i, after) →
    i.wellFormed = true ∧ step s = exec i { s with script := rest }

/-- R110: every opcode word above 21 raises IllegalInstruction before any operand word is fetched (also at the top of
memory, where an operand word would be out of bounds). -/
def Obligations.IllegalOpcodeFails : Prop :=
  ∀ (op : Word) (s s1 : State), 21 < op.toNat → runsAt op s s1 →
    step s = .next (failed .illegalInstruction op op 0 s1)

/-- R134: an operand word past 32767 raises OutOfBounds with its address and the lowest position. -/
def Obligations.OperandPastMemoryFails : Prop :=
  ∀ (op : Word) (s s1 : State) (k : Nat), op.toNat ≤ 21 → runsAt op s s1 →
    1 ≤ k → k ≤ operandCount op.toNat → 32767 < s.pc.toNat + k → (∀ j, j < k → s.pc.toNat + j ≤ 32767) →
    step s = .next (failed .outOfBounds op (BitVec.ofNat 16 (s.pc.toNat + k)) k s1)

/-- R132: in IDLE, WAIT_INPUT, HALTED, FAILED and ABORTED the CORE takes no step. That its turn is then a step
of the model that changes nothing is the model's choice (log entry 6). -/
def Obligations.OnlyRunningCoreSteps : Prop :=
  ∀ (s : State) (rest : List HostMove), s.rs ≠ .running → s.turn = .core rest →
    step s = .next { s with script := rest }

/-- Every instruction, in every state and with every operand, answers a next state: no instruction is refused and none
ends in a fault of the model. -/
def Obligations.EveryInstructionAnswersNext : Prop :=
  ∀ (i : Instr) (s : State), ∃ t, exec i s = .next t

/-- From a sound state a step answers a next state, but for a host that breaks its duty to deliver no line longer than
the buffer (R310), and that step is refused (log entry 8). -/
def Obligations.SoundStepIsSafe : Prop :=
  ∀ s : State, s.Inv →
    safeOutcome (step s) ∨
    (step s = .refused .lineTooLong ∧
      ∃ line rest n, s.turn = .host (.deliver line) rest ∧ s.cfg.inbufDepth = .bounded n ∧ n < line.length + 1)

/-- Every step keeps the invariant, from every state that has it. -/
def Obligations.StepKeepsInv : Prop :=
  ∀ s t : State, s.Inv → step s = .next t → t.Inv

/-- The invariant holds at reset, and after reset of a CORE with any legal parameters and any memory. The
parameters of the reset state are the model's choice (log entry 2). -/
def Obligations.ResetHasInv : Prop :=
  State.reset.Inv ∧
  ∀ (cfg : Config) (mem : Memory), depthLegal cfg.stackDepth → depthLegal cfg.inbufDepth → mem.wf = true →
    (State.afterReset cfg mem).Inv

/-- R138: a step that ends in FAILED commits nothing: it changes the run state and records the fault, with the opcode
word at the pc. -/
def Obligations.FaultsArePrecise : Prop :=
  ∀ (s t : State) (rest : List HostMove), s.turn = .core rest → s.rs = .running → step s = .next t → t.rs = .failed →
    ∃ cause info k, cause ≠ .none ∧
      t = failed cause (s.mem.readWord s.pc.toNat) info k { s with script := rest }

/-- The run-state machine has no other transitions than these (R131). -/
def Obligations.RunStateTransitions : Prop :=
  ∀ s t : State, step s = .next t →
    t.rs = s.rs ∨
    (t.rs = .idle ∧ ∃ rest, s.turn = .host .reset rest) ∨
    (s.rs = .idle ∧ t.rs = .running ∧ ∃ rest, s.turn = .host .start rest) ∨
    (s.rs = .running ∧ (t.rs = .halted ∨ t.rs = .failed ∨ t.rs = .waitInput) ∧ ∃ rest, s.turn = .core rest) ∨
    (s.rs = .waitInput ∧ t.rs = .running ∧ ∃ line rest, s.turn = .host (.deliver line) rest) ∨
    ((s.rs = .running ∨ s.rs = .waitInput) ∧ t.rs = .aborted ∧ ∃ rest, s.turn = .host .abort rest)

/-- In a terminal run state every piece of state survives every step but the host's reset (R280, R131). -/
def Obligations.EndedRunsStayUnchanged : Prop :=
  ∀ s t : State, s.ended = true → (∀ rest, s.turn ≠ .host .reset rest) → step s = .next t →
    t = { s with script := t.script }

/-! ### Frames, over all instructions -/

/-- Every byte of memory reads as before, but for the two bytes of the word a wmem stores to; they hold the stored
value, low half first, a byte order that is the model's (log entry 1). -/
def Obligations.MemoryFrame : Prop :=
  ∀ (i : Instr) (s t : State), exec i s = .next t →
    (∀ n, ¬ stores i s n → t.mem.readByte n = s.mem.readByte n) ∧
    (∀ a b addr v, i = .wmem a b → resolve s a = some addr → resolve s b = some v → addr.toNat ≤ 32767 →
      t.mem.readByte (2 * addr.toNat) = v.extractLsb' 0 8 ∧ t.mem.readByte (2 * addr.toNat + 1) = v.extractLsb' 8 8)

/-- No register changes but the destination register of the instruction: set, pop, eq, gt, add, mult, mod, and, or, not,
rmem and in may write it, and halt, push, jmp, jt, jf, wmem, call, ret, out and noop write none (R32). -/
def Obligations.RegisterFrame : Prop :=
  ∀ (i : Instr) (s t : State), exec i s = .next t →
    ∀ r : Reg, destination i ≠ some r → t.regs[r] = s.regs[r]

/-- The stack changes only by push and call, which add one entry on top, and by pop and ret, which take the top
(R42). -/
def Obligations.StackFrame : Prop :=
  ∀ (i : Instr) (s t : State), exec i s = .next t →
    t.stack = s.stack ∨
    ((∃ a v, i = .push a ∧ means s a v ∧ t.stack = s.stack ++ [v])) ∨
    ((∃ a, i = .call a ∧ t.stack = s.stack ++ [s.pc + 2])) ∨
    (((∃ a, i = .pop a) ∨ i = .ret) ∧ ∃ v, s.stack = t.stack ++ [v])

/-- The output grows only by out, by exactly one code; the input buffer changes only by in, by its first code; no
instruction changes the parameters, the lines delivered or the host's moves (R230, R237, R240); those fields are
the model's own (log entries 2, 5 and 6). -/
def Obligations.InputOutputFrame : Prop :=
  ∀ (i : Instr) (s t : State), exec i s = .next t →
    (t.emitted = s.emitted ∨ ∃ a v, i = .out a ∧ means s a v ∧ t.emitted = s.emitted ++ [v]) ∧
    (t.inBuf = s.inBuf ∨ ∃ r v, i = .inp (.register r) ∧ s.inBuf = v :: t.inBuf ∧ t.regs[r] = v) ∧
    t.cfg = s.cfg ∧ t.delivered = s.delivered ∧ t.script = s.script

/-- HALT_CAUSE is written only on entry to HALTED and the fault registers only on entry to FAILED; an instruction that
fails leaves the pc, and one that halts by halt or by an empty ret leaves it too (R53, R138, R140). -/
def Obligations.StatusRegisterFrame : Prop :=
  ∀ (i : Instr) (s t : State), exec i s = .next t →
    (t.haltCause = s.haltCause ∨ t.rs = .halted) ∧
    ((t.faultCause = s.faultCause ∧ t.faultPc = s.faultPc ∧ t.faultOpcode = s.faultOpcode ∧
      t.faultInfo = s.faultInfo ∧ t.faultOpIdx = s.faultOpIdx) ∨
     (t.rs = .failed ∧ t.faultPc = s.pc ∧ t.faultOpcode = i.opcode ∧ t.pc = s.pc)) ∧
    (t.haltCause ≠ s.haltCause → t.haltCause ≠ .pcRange → t.pc = s.pc)

/-! ### What each instruction does: completion, with the whole next state -/

/-- set, push and pop complete (R160, R161, R162). -/
def Obligations.MoveAndStackComplete : Prop :=
  ∀ (s : State) (r : Reg) (a : Operand) (v : Word),
    (means s a v → exec (.set (.register r) a) s = .next (landed (s.pc + 3) (wrote r v s))) ∧
    (means s a v → ¬ stackFull s →
      exec (.push a) s = .next (landed (s.pc + 2) { s with stack := s.stack ++ [v] })) ∧
    (∀ below : List Word, s.stack = below ++ [v] →
      exec (.pop (.register r)) s = .next (landed (s.pc + 2) (wrote r v { s with stack := below })))

/-- eq and gt complete, comparing all 16 bits as unsigned numbers (R170, R171). -/
def Obligations.ComparisonsComplete : Prop :=
  ∀ (s : State) (r : Reg) (b c : Operand) (vb vc : Word), means s b vb → means s c vc →
    exec (.eq (.register r) b c) s =
      .next (landed (s.pc + 4) (wrote r (if vb.toNat = vc.toNat then 1 else 0) s)) ∧
    exec (.gt (.register r) b c) s =
      .next (landed (s.pc + 4) (wrote r (if vb.toNat > vc.toNat then 1 else 0) s))

/-- jmp, jt and jf complete (R181, R182, R183). -/
def Obligations.JumpsComplete : Prop :=
  ∀ (s : State) (a b : Operand) (v t : Word), means s a v → means s b t →
    exec (.jmp b) s = .next (landed t s) ∧
    exec (.jt a b) s = .next (landed (if v.toNat = 0 then s.pc + 3 else t) s) ∧
    exec (.jf a b) s = .next (landed (if v.toNat = 0 then t else s.pc + 3) s)

/-- call completes where the stack is not full: the return address is pushed, also where the target is out of range and
the run halts (R184). -/
def Obligations.CallCompletes : Prop :=
  ∀ (s : State) (a : Operand) (t : Word), means s a t → ¬ stackFull s →
    exec (.call a) s = .next (landed t { s with stack := s.stack ++ [s.pc + 2] })

/-- R185, ret: it pops the top entry into the pc, or halts gracefully on an empty stack, with the pc unchanged; a step at
its opcode word, 18, is nothing else. -/
def Obligations.RetCompletes : Prop :=
  (∀ s s1 : State, runsAt 18 s s1 → step s = exec .ret s1) ∧
  ∀ s : State,
    (s.stack = [] → exec .ret s = .next { s with rs := .halted, haltCause := .retEmpty }) ∧
    (∀ (below : List Word) (t : Word), s.stack = below ++ [t] →
      exec .ret s = .next (landed t { s with stack := below }))

/-- R180, halt: it ends the run and changes nothing else. R186, noop: it only advances the pc, and halts the run off the
top of memory. A step at their opcode words, 0 and 21, is nothing else. -/
def Obligations.HaltAndNoopComplete : Prop :=
  (∀ s s1 : State, runsAt 0 s s1 → step s = exec .halt s1) ∧
  (∀ s s1 : State, runsAt 21 s s1 → step s = exec .noop s1) ∧
  ∀ s : State,
    exec .halt s = .next { s with rs := .halted, haltCause := .haltInstr } ∧
    (s.pc.toNat < 32767 → ∃ t, exec .noop s = .next t ∧ t.pc.toNat = s.pc.toNat + 1 ∧ t = { s with pc := t.pc }) ∧
    (s.pc.toNat = 32767 →
      exec .noop s = .next { s with pc := 32768, rs := .halted, haltCause := .pcRange })

/-- add, mult, mod (with a nonzero divisor), and, or and not complete (R200 to R205). -/
def Obligations.ArithmeticCompletes : Prop :=
  ∀ (s : State) (r : Reg) (b c : Operand) (vb vc : Word), means s b vb → means s c vc →
    exec (.add (.register r) b c) s =
      .next (landed (s.pc + 4) (wrote r (BitVec.ofNat 16 ((vb.toNat + vc.toNat) % 32768)) s)) ∧
    exec (.mult (.register r) b c) s =
      .next (landed (s.pc + 4) (wrote r (BitVec.ofNat 16 ((vb.toNat * vc.toNat) % 32768)) s)) ∧
    (vc ≠ 0 → exec (.mod (.register r) b c) s =
      .next (landed (s.pc + 4) (wrote r (BitVec.ofNat 16 (vb.toNat % vc.toNat)) s))) ∧
    exec (.and (.register r) b c) s = .next (landed (s.pc + 4) (wrote r (vb &&& vc) s)) ∧
    exec (.or (.register r) b c) s = .next (landed (s.pc + 4) (wrote r (vb ||| vc) s)) ∧
    exec (.not (.register r) b) s = .next (landed (s.pc + 3) (wrote r (vb ^^^ 0x7FFF) s))

/-- rmem and wmem complete at every address of memory (R220, R221). -/
def Obligations.MemoryAccessCompletes : Prop :=
  ∀ (s : State) (r : Reg) (a b : Operand) (addr v : Word), means s a addr → means s b v → addr.toNat ≤ 32767 →
    exec (.rmem (.register r) a) s = .next (landed (s.pc + 3) (wrote r (s.mem.readWord addr.toNat) s)) ∧
    ∃ m : Memory, exec (.wmem a b) s = .next (landed (s.pc + 3) { s with mem := m }) ∧
      m.base = s.mem.base ∧ m.readWord addr.toNat = v ∧
      ∀ q, q ≠ addr.toNat → m.readWord q = s.mem.readWord q

/-- out completes with any code, and in completes where the input buffer is not empty (R230, R231, R237). -/
def Obligations.CharacterIoCompletes : Prop :=
  ∀ (s : State) (r : Reg) (a : Operand) (v : Word),
    (means s a v → exec (.out a) s = .next (landed (s.pc + 2) { s with emitted := s.emitted ++ [v] })) ∧
    (∀ rest : List Word, s.inBuf = v :: rest →
      exec (.inp (.register r)) s = .next (landed (s.pc + 2) (wrote r v { s with inBuf := rest })))

/-! ### Each rule whole: what a step does at the instruction's opcode, with every operand word and every exception -/

/-- R160, set. -/
def Obligations.SetRule : Prop :=
  ∀ s s1 : State, runsAt 1 s s1 →
    step s = .next (fetching 1 2 s1 (destAt 1 1 s1 fun r => valueAt 1 2 s1 fun v =>
      landed (s1.pc + 3) (wrote r v s1)))

/-- R161, push. -/
def Obligations.PushRule : Prop :=
  ∀ s s1 : State, runsAt 2 s s1 →
    (stackFull s1 → step s = .next (fetching 2 1 s1 (valueAt 2 1 s1 fun v => failed .stackOverflow 2 v 0 s1))) ∧
    (¬ stackFull s1 → step s = .next (fetching 2 1 s1 (valueAt 2 1 s1 fun v =>
      landed (s1.pc + 2) { s1 with stack := s1.stack ++ [v] })))

/-- R162, pop. -/
def Obligations.PopRule : Prop :=
  ∀ s s1 : State, runsAt 3 s s1 →
    (s1.stack = [] → step s = .next (fetching 3 1 s1 (destAt 3 1 s1 fun _ => failed .stackUnderflow 3 0 0 s1))) ∧
    (∀ (below : List Word) (v : Word), s1.stack = below ++ [v] →
      step s = .next (fetching 3 1 s1 (destAt 3 1 s1 fun r =>
        landed (s1.pc + 2) (wrote r v { s1 with stack := below }))))

/-- R170, eq. -/
def Obligations.EqRule : Prop :=
  ∀ s s1 : State, runsAt 4 s s1 →
    step s = .next (fetching 4 3 s1 (destAt 4 1 s1 fun r => valueAt 4 2 s1 fun vb => valueAt 4 3 s1 fun vc =>
      landed (s1.pc + 4) (wrote r (if vb.toNat = vc.toNat then 1 else 0) s1)))

/-- R171, gt. -/
def Obligations.GtRule : Prop :=
  ∀ s s1 : State, runsAt 5 s s1 →
    step s = .next (fetching 5 3 s1 (destAt 5 1 s1 fun r => valueAt 5 2 s1 fun vb => valueAt 5 3 s1 fun vc =>
      landed (s1.pc + 4) (wrote r (if vb.toNat > vc.toNat then 1 else 0) s1)))

/-- R181, jmp. -/
def Obligations.JmpRule : Prop :=
  ∀ s s1 : State, runsAt 6 s s1 →
    step s = .next (fetching 6 1 s1 (valueAt 6 1 s1 fun t => landed t s1))

/-- R182, jt, and R183, jf. -/
def Obligations.JtAndJfRules : Prop :=
  ∀ s s1 : State,
    (runsAt 7 s s1 → step s = .next (fetching 7 2 s1 (valueAt 7 1 s1 fun cnd => valueAt 7 2 s1 fun t =>
      if cnd.toNat ≠ 0 then landed t s1 else landed (s1.pc + 3) s1))) ∧
    (runsAt 8 s s1 → step s = .next (fetching 8 2 s1 (valueAt 8 1 s1 fun cnd => valueAt 8 2 s1 fun t =>
      if cnd.toNat = 0 then landed t s1 else landed (s1.pc + 3) s1)))

/-- R200, add. -/
def Obligations.AddRule : Prop :=
  ∀ s s1 : State, runsAt 9 s s1 →
    step s = .next (fetching 9 3 s1 (destAt 9 1 s1 fun r => valueAt 9 2 s1 fun vb => valueAt 9 3 s1 fun vc =>
      landed (s1.pc + 4) (wrote r (BitVec.ofNat 16 ((vb.toNat + vc.toNat) % 32768)) s1)))

/-- R201, mult. -/
def Obligations.MultRule : Prop :=
  ∀ s s1 : State, runsAt 10 s s1 →
    step s = .next (fetching 10 3 s1 (destAt 10 1 s1 fun r => valueAt 10 2 s1 fun vb => valueAt 10 3 s1 fun vc =>
      landed (s1.pc + 4) (wrote r (BitVec.ofNat 16 ((vb.toNat * vc.toNat) % 32768)) s1)))

/-- R202, mod. -/
def Obligations.ModRule : Prop :=
  ∀ s s1 : State, runsAt 11 s s1 →
    step s = .next (fetching 11 3 s1 (destAt 11 1 s1 fun r => valueAt 11 2 s1 fun vb => valueAt 11 3 s1 fun vc =>
      if vc.toNat = 0 then failed .divideByZero 11 vb 0 s1
      else landed (s1.pc + 4) (wrote r (BitVec.ofNat 16 (vb.toNat % vc.toNat)) s1)))

/-- R203, and, and R204, or: on all 16 bits. -/
def Obligations.AndAndOrRules : Prop :=
  ∀ s s1 : State,
    (runsAt 12 s s1 →
      step s = .next (fetching 12 3 s1 (destAt 12 1 s1 fun r => valueAt 12 2 s1 fun vb => valueAt 12 3 s1 fun vc =>
        landed (s1.pc + 4) (wrote r (vb &&& vc) s1)))) ∧
    (runsAt 13 s s1 →
      step s = .next (fetching 13 3 s1 (destAt 13 1 s1 fun r => valueAt 13 2 s1 fun vb => valueAt 13 3 s1 fun vc =>
        landed (s1.pc + 4) (wrote r (vb ||| vc) s1))))

/-- R205, not: bits 14:0 inverted, bit 15 as it was; applied twice it gives the value back. -/
def Obligations.NotRule : Prop :=
  (∀ s s1 : State, runsAt 14 s s1 →
    step s = .next (fetching 14 2 s1 (destAt 14 1 s1 fun r => valueAt 14 2 s1 fun vb =>
      landed (s1.pc + 3) (wrote r (notWord vb) s1)))) ∧
  ∀ v : Word, (∀ j, j < 15 → (notWord v).getLsbD j = !(v.getLsbD j)) ∧ (notWord v).getLsbD 15 = v.getLsbD 15 ∧
    notWord (notWord v) = v

/-- R220, rmem. -/
def Obligations.RmemRule : Prop :=
  ∀ s s1 : State, runsAt 15 s s1 →
    step s = .next (fetching 15 2 s1 (destAt 15 1 s1 fun r => valueAt 15 2 s1 fun addr =>
      if 32767 < addr.toNat then failed .outOfBounds 15 addr 0 s1
      else landed (s1.pc + 3) (wrote r (s1.mem.readWord addr.toNat) s1)))

/-- R221, wmem: the word at the address reads as the value stored, and every other word as before. -/
def Obligations.WmemRule : Prop :=
  (∀ s s1 : State, runsAt 16 s s1 →
    step s = .next (fetching 16 2 s1 (valueAt 16 1 s1 fun addr => valueAt 16 2 s1 fun v =>
      if 32767 < addr.toNat then failed .outOfBounds 16 addr 0 s1
      else landed (s1.pc + 3) { s1 with mem := s1.mem.writeWord addr.toNat v }))) ∧
  ∀ (m : Memory) (a q : Nat) (v : Word), (m.writeWord a v).readWord q = if q = a then v else m.readWord q

/-- R184, call. -/
def Obligations.CallRule : Prop :=
  ∀ s s1 : State, runsAt 17 s s1 →
    (stackFull s1 →
      step s = .next (fetching 17 1 s1 (valueAt 17 1 s1 fun _ => failed .stackOverflow 17 (s1.pc + 2) 0 s1))) ∧
    (¬ stackFull s1 → step s = .next (fetching 17 1 s1 (valueAt 17 1 s1 fun t =>
      landed t { s1 with stack := s1.stack ++ [s1.pc + 2] })))

/-- R230, out. The list of codes emitted is the model's record of the port's events (log entry 5). -/
def Obligations.OutRule : Prop :=
  ∀ s s1 : State, runsAt 19 s s1 →
    step s = .next (fetching 19 1 s1 (valueAt 19 1 s1 fun v =>
      landed (s1.pc + 2) { s1 with emitted := s1.emitted ++ [v] }))

/-- R231, in: with an empty buffer the run state is all that changes. -/
def Obligations.InRule : Prop :=
  ∀ s s1 : State, runsAt 20 s s1 →
    (s1.inBuf = [] → step s = .next (fetching 20 1 s1 (destAt 20 1 s1 fun _ => { s1 with rs := .waitInput }))) ∧
    (∀ (ch : Word) (rest : List Word), s1.inBuf = ch :: rest →
      step s = .next (fetching 20 1 s1 (destAt 20 1 s1 fun r =>
        landed (s1.pc + 2) (wrote r ch { s1 with inBuf := rest }))))

/-! ### Laws over several steps -/

/-- R163: push v1; push v2; pop ra; pop rb gives back v2 and v1 in reverse order and leaves the stack as it was. -/
def Obligations.StackRoundTrip : Prop :=
  ∀ (s : State) (a b : Operand) (v1 v2 : Word) (ra rb : Reg),
    s.cfg.stackDepth = .unbounded → s.pc.toNat + 8 ≤ 32767 → means s a v1 → means s b v2 → ra ≠ rb →
    ∃ s1 s2 s3 s4, exec (.push a) s = .next s1 ∧ exec (.push b) s1 = .next s2 ∧
      exec (.pop (.register ra)) s2 = .next s3 ∧ exec (.pop (.register rb)) s3 = .next s4 ∧
      s4.regs[ra] = v2 ∧ s4.regs[rb] = v1 ∧ s4.stack = s.stack ∧ s4.pc.toNat = s.pc.toNat + 8

/-- call followed by ret returns to the word after the call's two, with the stack as before (R184, R185, R187). -/
def Obligations.CallThenRetReturns : Prop :=
  ∀ (s : State) (a : Operand) (t : Word), means s a t → ¬ stackFull s →
    s.pc.toNat + 2 ≤ 32767 → t.toNat ≤ 32767 →
    ∃ s1, exec (.call a) s = .next s1 ∧ s1.pc = t ∧ exec .ret s1 = .next { s with pc := s.pc + 2 }

/-- R86: a stored word is what the very next step fetches, as opcode or as operand. -/
def Obligations.StoreSeenByNextFetch : Prop :=
  ∀ (s t : State) (a b : Operand) (addr v : Word) (k : Nat),
    means s a addr → means s b v → addr.toNat ≤ 32767 → s.pc.toNat + 3 ≤ 32767 → exec (.wmem a b) s = .next t →
    s.pc.toNat + 3 + k = addr.toNat → t.fetchWord k = some v

/-- The output never loses a code: a step keeps what was emitted, unless the host resets the CORE, and only a step of a
RUNNING core at an out adds one (R232, R240). The list of codes and whose turn it is are the model's own (log entries 5
and 6). -/
def Obligations.OutputOnlyGrows : Prop :=
  ∀ s t : State, step s = .next t → (∀ rest, s.turn ≠ .host .reset rest) →
    t.emitted = s.emitted ∨
    ∃ v, t.emitted = s.emitted ++ [v] ∧ s.rs = .running ∧ s.mem.readWord s.pc.toNat = 19 ∧
      ∃ rest, s.turn = .core rest

/-! ### The host -/

/-- Reset, from any run state: every piece of the CORE's state at its reset value, memory unchanged (R57, R300). The
two records of the run, `emitted` and `delivered`, start empty: the model's choice (log entry 5). -/
def Obligations.ResetMove : Prop :=
  ∀ (s : State) (rest : List HostMove), s.script = .reset :: rest →
    ∃ t, step s = .next t ∧ t.pc = 0 ∧ (∀ r : Reg, t.regs[r] = 0) ∧ t.stack = [] ∧ t.inBuf = [] ∧ t.rs = .idle ∧
      t.haltCause = .none ∧ t.faultCause = .none ∧ t.faultPc = 0 ∧ t.faultOpcode = 0 ∧ t.faultInfo = 0 ∧
      t.faultOpIdx = 0 ∧ t.mem = s.mem ∧ t.cfg = s.cfg ∧ t.emitted = [] ∧ t.delivered = [] ∧ t.script = rest

/-- R302: in IDLE a load gives memory the image and then zeros; a longer image, or another run state, changes nothing. -/
def Obligations.LoadMove : Prop :=
  ∀ (s : State) (image : List Word) (rest : List HostMove), s.script = .load image :: rest →
    (s.rs = .idle → image.length ≤ 32768 →
      ∃ m : Memory, step s = .next { s with mem := m, script := rest } ∧
        (∀ a, a < image.length → some (m.readWord a) = image[a]?) ∧
        (∀ a, image.length ≤ a → a ≤ 32767 → m.readWord a = 0)) ∧
    (s.rs ≠ .idle ∨ 32768 < image.length → step s = .next { s with script := rest })

/-- Start, preload and abort have their effect in the run states that admit them and none in the others, and a run that
starts in a sound state fetches its first opcode at word 0 (R304, R305, R272). -/
def Obligations.ControlMoves : Prop :=
  ∀ (s : State) (rest : List HostMove),
    (s.script = .start :: rest → s.rs = .idle → step s = .next { s with rs := .running, script := rest }) ∧
    (s.script = .start :: rest → s.rs = .idle → s.Inv → s.fetchWord 0 = some (s.mem.readWord 0)) ∧
    (s.script = .start :: rest → s.rs ≠ .idle → step s = .next { s with script := rest }) ∧
    (∀ r v, s.script = .preload r v :: rest → s.rs = .idle → step s = .next (wrote r v { s with script := rest })) ∧
    (∀ r v, s.script = .preload r v :: rest → s.rs ≠ .idle → step s = .next { s with script := rest }) ∧
    (s.script = .abort :: rest → (s.rs = .running ∨ s.rs = .waitInput) →
      step s = .next { s with rs := .aborted, script := rest }) ∧
    (s.script = .abort :: rest → ¬ (s.rs = .running ∨ s.rs = .waitInput) → step s = .next { s with script := rest })

/-- A line reaches a waiting CORE with its terminator, and the next step is the same `in`, which takes the first code;
a line for a CORE that does not wait stays with the host (R234, R236, R237; log entry 6). -/
def Obligations.WaitingInTakesDeliveredLine : Prop :=
  ∀ (s : State) (line : List Word) (rest : List HostMove), s.Inv → s.script = .deliver line :: rest →
    (s.rs = .waitInput → depthAdmits s.cfg.inbufDepth (line.length + 1) = true →
      ∃ s1, step s = .next s1 ∧
        s1 = { s with inBuf := line ++ [s.cfg.lineTerm], rs := .running, delivered := s.delivered ++ [line], script := rest } ∧
        ∀ more, s1.turn = .core more → s.pc.toNat + 1 ≤ 32767 →
          32768 ≤ (operandWord s 1).toNat → (operandWord s 1).toNat ≤ 32775 →
          ∃ t ch more', line ++ [s.cfg.lineTerm] = ch :: more' ∧ step s1 = .next t ∧ t.inBuf = more' ∧
            ∀ r : Reg, r = registerOf (operandWord s 1) → t.regs[r] = ch) ∧
    (s.rs ≠ .waitInput → s.turn = .core s.script)

/-- The status port answers at the addresses 0 to 6, with the codes of R44, R47 and R48, the fault registers, and zeros
in the reserved bits (R46 to R52, R309). That an address above 6 has no answer is the model's own (log entry 11, DEDUCED):
no rule speaks of one. -/
def Obligations.StatusPortValues : Prop :=
  ∀ (s : State) (addr : Nat),
    (6 < addr → statusRead addr s = none) ∧
    statusRead 0 s = some (match s.rs with
      | .idle => 0
      | .running => 1
      | .waitInput => 2
      | .halted => 3
      | .failed => 4
      | .aborted => 5) ∧
    statusRead 1 s = some (match s.haltCause with
      | .none => 0
      | .haltInstr => 1
      | .retEmpty => 2
      | .pcRange => 3) ∧
    statusRead 2 s = some (match s.faultCause with
      | .none => 0
      | .outOfBounds => 1
      | .stackUnderflow => 2
      | .illegalInstruction => 3
      | .invalidOperand => 4
      | .divideByZero => 5
      | .stackOverflow => 6) ∧
    statusRead 3 s = some s.faultPc ∧ statusRead 4 s = some s.faultOpcode ∧ statusRead 5 s = some s.faultInfo ∧
    ∃ v, statusRead 6 s = some v ∧ v.toNat = s.faultOpIdx.toNat
end

