-- ==== Sys2Proof/Laws/Decode.lean ====
section
/-! SUPPORT. The laws of operand words and of decoding: an operand word and its class determine each other, and what the
decoder reads. -/

namespace Sys2Proof

/-! ### Operand words -/

theorem Operand.ofWord_literal (w : Word) (h : w.toNat ≤ literalMax) : Operand.ofWord w = .literal (w.setWidth 15) :=
  if_pos h

theorem Operand.ofWord_register (w : Word) (h1 : literalMax < w.toNat) (h2 : w.toNat ≤ regLast) :
    Operand.ofWord w = .register (Fin.ofNat 8 (w.toNat - regBase)) := by
  rw [Operand.ofWord, if_neg (Nat.not_le.mpr h1), if_pos h2]

theorem Operand.ofWord_invalid (w : Word) (h : regLast < w.toNat) : Operand.ofWord w = .invalid w := by
  have h1 : literalMax < regLast := by decide
  rw [Operand.ofWord, if_neg (by omega), if_neg (by omega)]

theorem Operand.toWord_ofWord (w : Word) : (Operand.ofWord w).toWord = w := by
  have hl : literalMax = 32767 := rfl
  have hr : regLast = 32775 := rfl
  have hb : regBase = 32768 := rfl
  by_cases h1 : w.toNat ≤ literalMax
  · rw [Operand.ofWord_literal w h1]
    apply BitVec.eq_of_toNat_eq
    simp only [Operand.toWord, BitVec.toNat_setWidth]
    omega
  · by_cases h2 : w.toNat ≤ regLast
    · rw [Operand.ofWord_register w (by omega) h2]
      apply BitVec.eq_of_toNat_eq
      simp only [Operand.toWord, BitVec.toNat_ofNat, Fin.ofNat]
      omega
    · rw [Operand.ofWord_invalid w (by omega)]
      rfl

theorem Operand.ofWord_toWord (o : Operand) (h : o.wellFormed = true) : Operand.ofWord o.toWord = o := by
  have hl : literalMax = 32767 := rfl
  have hr : regLast = 32775 := rfl
  have hb : regBase = 32768 := rfl
  cases o with
  | literal v =>
    have hv := v.isLt
    have hw : (v.setWidth 16).toNat = v.toNat := by rw [BitVec.toNat_setWidth]; omega
    rw [Operand.toWord, Operand.ofWord_literal _ (by omega)]
    refine congrArg Operand.literal (BitVec.eq_of_toNat_eq ?_)
    rw [BitVec.toNat_setWidth, hw]
    omega
  | register r =>
    have hlt := r.isLt
    have hw : (BitVec.ofNat 16 (regBase + r.val)).toNat = 32768 + r.val := by
      rw [BitVec.toNat_ofNat]; omega
    rw [Operand.toWord, Operand.ofWord_register _ (by omega) (by omega), hw]
    refine congrArg Operand.register (Fin.ext ?_)
    simp only [Fin.ofNat]
    omega
  | invalid w =>
    exact Operand.ofWord_invalid w (by simpa [Operand.wellFormed] using h)

theorem Operand.ofWord_wellFormed (w : Word) : (Operand.ofWord w).wellFormed = true := by
  unfold Operand.ofWord
  split
  · rfl
  · split
    · rfl
    · next h => simpa [Operand.wellFormed] using Nat.lt_of_not_le h

/-! ### Decoding -/

/-- What it means that an operand word was read and the decoding went on to an instruction. -/
theorem operandAt_ok (word : Nat → Option Word) (op : Word) (k : Nat) (cont : Operand → Except DecodeError Instr)
    (i : Instr) (h : operandAt word op k cont = .ok i) : ∃ w, word k = some w ∧ cont (Operand.ofWord w) = .ok i := by
  unfold operandAt at h
  split at h
  · cases h
  · next w hw => exact ⟨w, hw, h⟩

/-- Decoding asks for the words 0 to 3 only. -/
theorem decodeAt_congr (f g : Nat → Option Word) (h : ∀ k, k ≤ 3 → f k = g k) : decodeAt f = decodeAt g := by
  have h0 := h 0 (by decide)
  have h1 := h 1 (by decide)
  have h2 := h 2 (by decide)
  have h3 := h 3 (by decide)
  simp only [decodeAt, decodeOp, formatF1, formatF2, formatF3, operandAt, h0, h1, h2, h3]

/-- An opcode above 21 is illegal. -/
theorem decodeOp_illegal (word : Nat → Option Word) (op : Word) (h : 21 < op.toNat) :
    decodeOp word op = .error (.illegalOpcode op) := by
  unfold decodeOp
  split <;> first | omega | rfl

end Sys2Proof
end

