-- ==== Sys2Proof/Laws/Memory.lean ====
section
/-! SUPPORT. The laws of memory: a read after a write, and that every memory operation keeps the canonical form. -/

namespace Sys2Proof.Machine

/-! ### Cells -/

theorem findCell_dropCell_self (n : Nat) (cs : List Host.Cell) : findCell n (dropCell n cs) = none := by
  induction cs with
  | nil => rfl
  | cons c cs ih =>
    obtain ⟨k, w⟩ := c
    by_cases h : k = n
    · simpa [dropCell, h] using ih
    · simpa [dropCell, h, findCell] using ih

theorem findCell_dropCell_other (n q : Nat) (cs : List Host.Cell) (hq : q ≠ n) :
    findCell q (dropCell n cs) = findCell q cs := by
  induction cs with
  | nil => rfl
  | cons c cs ih =>
    obtain ⟨k, w⟩ := c
    by_cases h : k = n
    · subst h
      simpa [dropCell, findCell, Ne.symm hq] using ih
    · by_cases hk : k = q
      · simp [dropCell, findCell, hk, hq]
      · simpa [dropCell, h, findCell, hk] using ih

theorem findCell_insertCell (n q : Nat) (v : Byte) (cs : List Host.Cell) (hn : findCell n cs = none) :
    findCell q (insertCell n v cs) = if q = n then some v else findCell q cs := by
  induction cs with
  | nil => simp [insertCell, findCell, eq_comm]
  | cons c cs ih =>
    obtain ⟨k, w⟩ := c
    have hk : k ≠ n := by rintro rfl; simp [findCell] at hn
    have hn' : findCell n cs = none := by simpa [findCell, hk] using hn
    by_cases hlt : k < n
    · by_cases hq : q = n
      · subst hq; simp [insertCell, hlt, findCell, hk, ih hn']
      · simp [insertCell, hlt, findCell, hq, ih hn']
    · by_cases hq : q = n
      · subst hq; simp [insertCell, hlt, findCell]
      · simp [insertCell, hlt, findCell, hq, Ne.symm hq]

/-! ### Bytes -/

@[simp] theorem Memory.writeByte_base (m : Memory) (n : Nat) (v : Byte) : (m.writeByte n v).base = m.base := by
  unfold Memory.writeByte; split <;> rfl

theorem Memory.readByte_writeByte (m : Memory) (n q : Nat) (v : Byte) :
    (m.writeByte n v).readByte q = if q = n then v else m.readByte q := by
  unfold Memory.writeByte
  split
  · next hv =>
    by_cases hq : q = n
    · subst hq; simp [Memory.readByte, findCell_dropCell_self, hv]
    · simp [Memory.readByte, findCell_dropCell_other n q _ hq, hq]
  · by_cases hq : q = n
    · subst hq; simp [Memory.readByte, findCell_insertCell _ _ _ _ (findCell_dropCell_self _ _)]
    · simp [Memory.readByte, findCell_insertCell _ _ _ _ (findCell_dropCell_self _ _), hq,
        findCell_dropCell_other n q _ hq]

/-! ### Words -/

@[simp] theorem Memory.writeWord_base (m : Memory) (a : Nat) (v : Word) : (m.writeWord a v).base = m.base := by
  simp [Memory.writeWord]

theorem Memory.readByte_writeWord (m : Memory) (a q : Nat) (v : Word) :
    (m.writeWord a v).readByte q =
      if q = 2 * a + 1 then v.extractLsb' 8 8 else if q = 2 * a then v.extractLsb' 0 8 else m.readByte q := by
  simp [Memory.writeWord, Memory.readByte_writeByte]

theorem word_halves (v : Word) : v.extractLsb' 8 8 ++ v.extractLsb' 0 8 = v := by
  apply BitVec.eq_of_toNat_eq
  have hv := v.isLt
  simp only [BitVec.toNat_append, BitVec.extractLsb'_toNat, Nat.shiftLeft_eq, Nat.shiftRight_eq_div_pow]
  rw [← Nat.shiftLeft_eq, ← Nat.shiftLeft_add_eq_or_of_lt (Nat.mod_lt _ (by decide)), Nat.shiftLeft_eq]
  omega

/-- A write to one word is read back, and every other word reads as before. -/
theorem Memory.readWord_writeWord (m : Memory) (a q : Nat) (v : Word) :
    (m.writeWord a v).readWord q = if q = a then v else m.readWord q := by
  unfold Memory.readWord
  rw [Memory.readByte_writeWord, Memory.readByte_writeWord]
  by_cases hq : q = a
  · subst hq
    have h2 : 2 * q ≠ 2 * q + 1 := by omega
    rw [if_pos rfl, if_neg h2, if_pos rfl, if_pos rfl]
    exact word_halves v
  · rw [if_neg (by omega), if_neg (by omega), if_neg (by omega), if_neg (by omega), if_neg hq]

/-! ### The canonical form -/

theorem cellsWf_weaken (b : MemBase) (cs : List Host.Cell) (lo lo' : Nat) (h : cellsWf b lo cs = true) (hl : lo' ≤ lo) :
    cellsWf b lo' cs = true := by
  cases cs with
  | nil => rfl
  | cons c cs =>
    obtain ⟨k, w⟩ := c
    simp only [cellsWf, Bool.and_eq_true, decide_eq_true_eq] at h ⊢
    exact ⟨⟨⟨by omega, h.1.1.2⟩, h.1.2⟩, h.2⟩

theorem cellsWf_dropCell (b : MemBase) (n : Nat) (cs : List Host.Cell) (lo : Nat) (h : cellsWf b lo cs = true) :
    cellsWf b lo (dropCell n cs) = true := by
  induction cs generalizing lo with
  | nil => rfl
  | cons c cs ih =>
    obtain ⟨k, w⟩ := c
    simp only [cellsWf, Bool.and_eq_true, decide_eq_true_eq] at h
    by_cases hk : k = n
    · have := ih _ (cellsWf_weaken b cs _ lo h.2 (by omega))
      simpa [dropCell, hk] using this
    · have := ih _ h.2
      simp only [dropCell, ne_eq, decide_not] at this
      simp [dropCell, hk, cellsWf, h.1.1.1, h.1.1.2, h.1.2, this]

theorem cellsWf_insertCell (b : MemBase) (n : Nat) (v : Byte) (cs : List Host.Cell) (lo : Nat)
    (h : cellsWf b lo cs = true) (hfree : findCell n cs = none) (hlo : lo ≤ n) (hn : n < 2 * memWords)
    (hv : v ≠ b.unlisted n) : cellsWf b lo (insertCell n v cs) = true := by
  induction cs generalizing lo with
  | nil => simp [insertCell, cellsWf, hlo, hn, hv]
  | cons c cs ih =>
    obtain ⟨k, w⟩ := c
    have hk : k ≠ n := by rintro rfl; simp [findCell] at hfree
    have hfree' : findCell n cs = none := by simpa [findCell, hk] using hfree
    simp only [cellsWf, Bool.and_eq_true, decide_eq_true_eq] at h
    by_cases hlt : k < n
    · have := ih (k + 1) h.2 hfree' hlt
      simp [insertCell, hlt, cellsWf, h.1.1.1, h.1.1.2, h.1.2, this]
    · have hnk : n + 1 ≤ k := by omega
      simp [insertCell, hlt, cellsWf, hlo, hn, hv, hnk, h.1.1.2, h.1.2, h.2]

theorem Memory.writeByte_wf (m : Memory) (n : Nat) (v : Byte) (h : m.wf = true) (hn : n < 2 * memWords) :
    (m.writeByte n v).wf = true := by
  unfold Memory.writeByte
  split
  · exact cellsWf_dropCell _ _ _ _ h
  · next hv =>
    exact cellsWf_insertCell _ _ _ _ _ (cellsWf_dropCell _ _ _ _ h) (findCell_dropCell_self _ _) (Nat.zero_le _) hn hv

theorem Memory.writeWord_wf (m : Memory) (a : Nat) (v : Word) (h : m.wf = true) (ha : a ≤ literalMax) :
    (m.writeWord a v).wf = true := by
  have h1 : literalMax + 1 = memWords := rfl
  exact Memory.writeByte_wf _ _ _ (Memory.writeByte_wf _ _ _ h (by omega)) (by omega)

theorem Memory.powerOn_wf : Memory.powerOn.wf = true := rfl

theorem cellsWf_cellUnlessZero (n lo : Nat) (v : Byte) (cs : List Host.Cell) (hlo : lo ≤ n) (hn : n < 2 * memWords)
    (h : cellsWf .zeroed (n + 1) cs = true) : cellsWf .zeroed lo (cellUnlessZero n v ++ cs) = true := by
  unfold cellUnlessZero
  split
  · exact cellsWf_weaken _ _ _ _ h (by omega)
  · next hv => simp [cellsWf, hlo, hn, h, hv, MemBase.unlisted]

theorem cellsWf_imageCells (image : List Word) (a : Nat) (h : a + image.length ≤ memWords) :
    cellsWf .zeroed (2 * a) (imageCells a image) = true := by
  induction image generalizing a with
  | nil => rfl
  | cons w rest ih =>
    simp only [List.length_cons] at h
    have := ih (a + 1) (by omega)
    rw [imageCells, List.append_assoc]
    exact cellsWf_cellUnlessZero _ _ _ _ (Nat.le_refl _) (by omega)
      (cellsWf_cellUnlessZero _ _ _ _ (Nat.le_refl _) (by omega) (by simpa [Nat.mul_add] using this))

theorem Memory.ofImage_wf (image : List Word) (h : image.length ≤ memWords) : (Memory.ofImage image).wf = true := by
  simpa [Memory.wf, Memory.ofImage] using cellsWf_imageCells image 0 (by omega)

theorem Memory.ensureLoaded_wf (m : Memory) (h : m.wf = true) : m.ensureLoaded.wf = true := by
  unfold Memory.ensureLoaded
  split
  · exact Memory.ofImage_wf [] (by decide)
  · exact h

theorem Memory.writeWords_wf (ws : List Word) (m : Memory) (a : Nat) (h : m.wf = true) (ha : a + ws.length ≤ memWords) :
    (m.writeWords a ws).wf = true := by
  induction ws generalizing m a with
  | nil => exact h
  | cons w rest ih =>
    simp only [List.length_cons] at ha
    have h1 : literalMax + 1 = memWords := rfl
    exact ih _ _ (Memory.writeWord_wf m a w h (by omega)) (by omega)

/-! ### What a load leaves -/

theorem findCell_cellUnlessZero (n q : Nat) (v : Byte) (cs : List Host.Cell) :
    findCell q (cellUnlessZero n v ++ cs) = if q = n ∧ v ≠ 0#8 then some v else findCell q cs := by
  by_cases hv : v = 0#8
  · simp [cellUnlessZero, hv]
  · by_cases hq : q = n
    · simp [cellUnlessZero, hv, findCell, hq]
    · simp [cellUnlessZero, hv, findCell, hq, Ne.symm hq]

theorem findCell_imageCells_below (image : List Word) (a q : Nat) (h : q < 2 * a) :
    findCell q (imageCells a image) = none := by
  induction image generalizing a with
  | nil => rfl
  | cons w rest ih =>
    have h1 : q ≠ 2 * a := by omega
    have h2 : q ≠ 2 * a + 1 := by omega
    simp [imageCells, findCell_cellUnlessZero, h1, h2, ih (a + 1) (by omega)]

theorem readByte_imageCells (image : List Word) (a : Nat) :
    ∀ j : Nat,
      (Memory.readByte ⟨.zeroed, imageCells a image⟩ (2 * (a + j)) = (image.getD j 0).extractLsb' 0 8) ∧
      (Memory.readByte ⟨.zeroed, imageCells a image⟩ (2 * (a + j) + 1) = (image.getD j 0).extractLsb' 8 8) := by
  induction image generalizing a with
  | nil => intro j; simp [imageCells, Memory.readByte, findCell, MemBase.unlisted]
  | cons w rest ih =>
    intro j
    cases j with
    | zero =>
      constructor
      · have hb := findCell_imageCells_below rest (a + 1) (2 * a) (by omega)
        by_cases hw : w.extractLsb' 0 8 = 0#8
        · simp [Memory.readByte, imageCells, findCell_cellUnlessZero, hb, hw, MemBase.unlisted]
        · simp [Memory.readByte, imageCells, findCell_cellUnlessZero, hw]
      · have hb := findCell_imageCells_below rest (a + 1) (2 * a + 1) (by omega)
        by_cases hw : w.extractLsb' 8 8 = 0#8
        · simp [Memory.readByte, imageCells, findCell_cellUnlessZero, hb, hw, MemBase.unlisted]
        · simp [Memory.readByte, imageCells, findCell_cellUnlessZero, hw]
    | succ j =>
      have := ih (a + 1) j
      have e : a + 1 + j = a + (j + 1) := by omega
      rw [e] at this
      have h1 : 2 * (a + (j + 1)) ≠ 2 * a := by omega
      have h2 : 2 * (a + (j + 1)) ≠ 2 * a + 1 := by omega
      have h3 : 2 * (a + (j + 1)) + 1 ≠ 2 * a := by omega
      have h4 : a + (j + 1) ≠ a := by omega
      simpa [Memory.readByte, imageCells, findCell_cellUnlessZero, h1, h2, h3, h4] using this

/-- After a load, word `a` is the image's word `a`, or 0 past the image's end. -/
theorem Memory.readWord_ofImage (image : List Word) (a : Nat) :
    (Memory.ofImage image).readWord a = image.getD a 0 := by
  have h := readByte_imageCells image 0 a
  simp only [Nat.zero_add] at h
  unfold Memory.readWord Memory.ofImage
  rw [h.1, h.2]
  exact word_halves _

end Sys2Proof.Machine
end

