-- ==== Sys2Proof/Laws/State.lean ====
section
/-! SUPPORT. The fields of the state after each update: one lemma per field, so that no proof unfolds a record update. -/

namespace Sys2Proof.Machine

/-! ### A register write -/

@[simp] theorem State.setReg_pc (s : State) (r : Reg) (v : Word) : (s.setReg r v).pc = s.pc := rfl
@[simp] theorem State.setReg_regs (s : State) (r : Reg) (v : Word) : (s.setReg r v).regs = s.regs.set r v := rfl
@[simp] theorem State.setReg_stack (s : State) (r : Reg) (v : Word) : (s.setReg r v).stack = s.stack := rfl
@[simp] theorem State.setReg_mem (s : State) (r : Reg) (v : Word) : (s.setReg r v).mem = s.mem := rfl
@[simp] theorem State.setReg_inBuf (s : State) (r : Reg) (v : Word) : (s.setReg r v).inBuf = s.inBuf := rfl
@[simp] theorem State.setReg_rs (s : State) (r : Reg) (v : Word) : (s.setReg r v).rs = s.rs := rfl
@[simp] theorem State.setReg_haltCause (s : State) (r : Reg) (v : Word) : (s.setReg r v).haltCause = s.haltCause := rfl
@[simp] theorem State.setReg_faultCause (s : State) (r : Reg) (v : Word) : (s.setReg r v).faultCause = s.faultCause := rfl
@[simp] theorem State.setReg_faultPc (s : State) (r : Reg) (v : Word) : (s.setReg r v).faultPc = s.faultPc := rfl
@[simp] theorem State.setReg_faultOpcode (s : State) (r : Reg) (v : Word) : (s.setReg r v).faultOpcode = s.faultOpcode := rfl
@[simp] theorem State.setReg_faultInfo (s : State) (r : Reg) (v : Word) : (s.setReg r v).faultInfo = s.faultInfo := rfl
@[simp] theorem State.setReg_faultOpIdx (s : State) (r : Reg) (v : Word) : (s.setReg r v).faultOpIdx = s.faultOpIdx := rfl
@[simp] theorem State.setReg_cfg (s : State) (r : Reg) (v : Word) : (s.setReg r v).cfg = s.cfg := rfl
@[simp] theorem State.setReg_emitted (s : State) (r : Reg) (v : Word) : (s.setReg r v).emitted = s.emitted := rfl
@[simp] theorem State.setReg_delivered (s : State) (r : Reg) (v : Word) : (s.setReg r v).delivered = s.delivered := rfl
@[simp] theorem State.setReg_script (s : State) (r : Reg) (v : Word) : (s.setReg r v).script = s.script := rfl

/-! ### An emitted code -/

@[simp] theorem State.emit_pc (s : State) (v : Word) : (s.emit v).pc = s.pc := rfl
@[simp] theorem State.emit_regs (s : State) (v : Word) : (s.emit v).regs = s.regs := rfl
@[simp] theorem State.emit_stack (s : State) (v : Word) : (s.emit v).stack = s.stack := rfl
@[simp] theorem State.emit_mem (s : State) (v : Word) : (s.emit v).mem = s.mem := rfl
@[simp] theorem State.emit_inBuf (s : State) (v : Word) : (s.emit v).inBuf = s.inBuf := rfl
@[simp] theorem State.emit_rs (s : State) (v : Word) : (s.emit v).rs = s.rs := rfl
@[simp] theorem State.emit_haltCause (s : State) (v : Word) : (s.emit v).haltCause = s.haltCause := rfl
@[simp] theorem State.emit_faultCause (s : State) (v : Word) : (s.emit v).faultCause = s.faultCause := rfl
@[simp] theorem State.emit_faultPc (s : State) (v : Word) : (s.emit v).faultPc = s.faultPc := rfl
@[simp] theorem State.emit_faultOpcode (s : State) (v : Word) : (s.emit v).faultOpcode = s.faultOpcode := rfl
@[simp] theorem State.emit_faultInfo (s : State) (v : Word) : (s.emit v).faultInfo = s.faultInfo := rfl
@[simp] theorem State.emit_faultOpIdx (s : State) (v : Word) : (s.emit v).faultOpIdx = s.faultOpIdx := rfl
@[simp] theorem State.emit_cfg (s : State) (v : Word) : (s.emit v).cfg = s.cfg := rfl
@[simp] theorem State.emit_emitted (s : State) (v : Word) : (s.emit v).emitted = s.emitted ++ [v] := rfl
@[simp] theorem State.emit_delivered (s : State) (v : Word) : (s.emit v).delivered = s.delivered := rfl
@[simp] theorem State.emit_script (s : State) (v : Word) : (s.emit v).script = s.script := rfl

/-! ### Waiting for input -/

@[simp] theorem State.waitForInput_pc (s : State)  : (s.waitForInput).pc = s.pc := rfl
@[simp] theorem State.waitForInput_regs (s : State)  : (s.waitForInput).regs = s.regs := rfl
@[simp] theorem State.waitForInput_stack (s : State)  : (s.waitForInput).stack = s.stack := rfl
@[simp] theorem State.waitForInput_mem (s : State)  : (s.waitForInput).mem = s.mem := rfl
@[simp] theorem State.waitForInput_inBuf (s : State)  : (s.waitForInput).inBuf = s.inBuf := rfl
@[simp] theorem State.waitForInput_rs (s : State)  : (s.waitForInput).rs = .waitInput := rfl
@[simp] theorem State.waitForInput_haltCause (s : State)  : (s.waitForInput).haltCause = s.haltCause := rfl
@[simp] theorem State.waitForInput_faultCause (s : State)  : (s.waitForInput).faultCause = s.faultCause := rfl
@[simp] theorem State.waitForInput_faultPc (s : State)  : (s.waitForInput).faultPc = s.faultPc := rfl
@[simp] theorem State.waitForInput_faultOpcode (s : State)  : (s.waitForInput).faultOpcode = s.faultOpcode := rfl
@[simp] theorem State.waitForInput_faultInfo (s : State)  : (s.waitForInput).faultInfo = s.faultInfo := rfl
@[simp] theorem State.waitForInput_faultOpIdx (s : State)  : (s.waitForInput).faultOpIdx = s.faultOpIdx := rfl
@[simp] theorem State.waitForInput_cfg (s : State)  : (s.waitForInput).cfg = s.cfg := rfl
@[simp] theorem State.waitForInput_emitted (s : State)  : (s.waitForInput).emitted = s.emitted := rfl
@[simp] theorem State.waitForInput_delivered (s : State)  : (s.waitForInput).delivered = s.delivered := rfl
@[simp] theorem State.waitForInput_script (s : State)  : (s.waitForInput).script = s.script := rfl

/-! ### A halt -/

@[simp] theorem State.haltRun_pc (s : State) (c : HaltCause) : (s.haltRun c).pc = s.pc := rfl
@[simp] theorem State.haltRun_regs (s : State) (c : HaltCause) : (s.haltRun c).regs = s.regs := rfl
@[simp] theorem State.haltRun_stack (s : State) (c : HaltCause) : (s.haltRun c).stack = s.stack := rfl
@[simp] theorem State.haltRun_mem (s : State) (c : HaltCause) : (s.haltRun c).mem = s.mem := rfl
@[simp] theorem State.haltRun_inBuf (s : State) (c : HaltCause) : (s.haltRun c).inBuf = s.inBuf := rfl
@[simp] theorem State.haltRun_rs (s : State) (c : HaltCause) : (s.haltRun c).rs = .halted := rfl
@[simp] theorem State.haltRun_haltCause (s : State) (c : HaltCause) : (s.haltRun c).haltCause = c := rfl
@[simp] theorem State.haltRun_faultCause (s : State) (c : HaltCause) : (s.haltRun c).faultCause = s.faultCause := rfl
@[simp] theorem State.haltRun_faultPc (s : State) (c : HaltCause) : (s.haltRun c).faultPc = s.faultPc := rfl
@[simp] theorem State.haltRun_faultOpcode (s : State) (c : HaltCause) : (s.haltRun c).faultOpcode = s.faultOpcode := rfl
@[simp] theorem State.haltRun_faultInfo (s : State) (c : HaltCause) : (s.haltRun c).faultInfo = s.faultInfo := rfl
@[simp] theorem State.haltRun_faultOpIdx (s : State) (c : HaltCause) : (s.haltRun c).faultOpIdx = s.faultOpIdx := rfl
@[simp] theorem State.haltRun_cfg (s : State) (c : HaltCause) : (s.haltRun c).cfg = s.cfg := rfl
@[simp] theorem State.haltRun_emitted (s : State) (c : HaltCause) : (s.haltRun c).emitted = s.emitted := rfl
@[simp] theorem State.haltRun_delivered (s : State) (c : HaltCause) : (s.haltRun c).delivered = s.delivered := rfl
@[simp] theorem State.haltRun_script (s : State) (c : HaltCause) : (s.haltRun c).script = s.script := rfl

/-! ### A fault -/

@[simp] theorem State.raise_pc (s : State) (c : FaultCause) (op info : Word) (k : BitVec 2) : (s.raise c op info k).pc = s.pc := rfl
@[simp] theorem State.raise_regs (s : State) (c : FaultCause) (op info : Word) (k : BitVec 2) : (s.raise c op info k).regs = s.regs := rfl
@[simp] theorem State.raise_stack (s : State) (c : FaultCause) (op info : Word) (k : BitVec 2) : (s.raise c op info k).stack = s.stack := rfl
@[simp] theorem State.raise_mem (s : State) (c : FaultCause) (op info : Word) (k : BitVec 2) : (s.raise c op info k).mem = s.mem := rfl
@[simp] theorem State.raise_inBuf (s : State) (c : FaultCause) (op info : Word) (k : BitVec 2) : (s.raise c op info k).inBuf = s.inBuf := rfl
@[simp] theorem State.raise_rs (s : State) (c : FaultCause) (op info : Word) (k : BitVec 2) : (s.raise c op info k).rs = .failed := rfl
@[simp] theorem State.raise_haltCause (s : State) (c : FaultCause) (op info : Word) (k : BitVec 2) : (s.raise c op info k).haltCause = s.haltCause := rfl
@[simp] theorem State.raise_faultCause (s : State) (c : FaultCause) (op info : Word) (k : BitVec 2) : (s.raise c op info k).faultCause = c := rfl
@[simp] theorem State.raise_faultPc (s : State) (c : FaultCause) (op info : Word) (k : BitVec 2) : (s.raise c op info k).faultPc = s.pc := rfl
@[simp] theorem State.raise_faultOpcode (s : State) (c : FaultCause) (op info : Word) (k : BitVec 2) : (s.raise c op info k).faultOpcode = op := rfl
@[simp] theorem State.raise_faultInfo (s : State) (c : FaultCause) (op info : Word) (k : BitVec 2) : (s.raise c op info k).faultInfo = info := rfl
@[simp] theorem State.raise_faultOpIdx (s : State) (c : FaultCause) (op info : Word) (k : BitVec 2) : (s.raise c op info k).faultOpIdx = k := rfl
@[simp] theorem State.raise_cfg (s : State) (c : FaultCause) (op info : Word) (k : BitVec 2) : (s.raise c op info k).cfg = s.cfg := rfl
@[simp] theorem State.raise_emitted (s : State) (c : FaultCause) (op info : Word) (k : BitVec 2) : (s.raise c op info k).emitted = s.emitted := rfl
@[simp] theorem State.raise_delivered (s : State) (c : FaultCause) (op info : Word) (k : BitVec 2) : (s.raise c op info k).delivered = s.delivered := rfl
@[simp] theorem State.raise_script (s : State) (c : FaultCause) (op info : Word) (k : BitVec 2) : (s.raise c op info k).script = s.script := rfl

/-! ### The pc update: the range check changes only RS and HALT_CAUSE -/

@[simp] theorem State.setPc_pc (s : State) (t : Word) : (s.setPc t).pc = t := by
  unfold State.setPc; split <;> rfl
@[simp] theorem State.setPc_regs (s : State) (t : Word) : (s.setPc t).regs = s.regs := by
  unfold State.setPc; split <;> rfl
@[simp] theorem State.setPc_stack (s : State) (t : Word) : (s.setPc t).stack = s.stack := by
  unfold State.setPc; split <;> rfl
@[simp] theorem State.setPc_mem (s : State) (t : Word) : (s.setPc t).mem = s.mem := by
  unfold State.setPc; split <;> rfl
@[simp] theorem State.setPc_inBuf (s : State) (t : Word) : (s.setPc t).inBuf = s.inBuf := by
  unfold State.setPc; split <;> rfl
@[simp] theorem State.setPc_faultCause (s : State) (t : Word) : (s.setPc t).faultCause = s.faultCause := by
  unfold State.setPc; split <;> rfl
@[simp] theorem State.setPc_faultPc (s : State) (t : Word) : (s.setPc t).faultPc = s.faultPc := by
  unfold State.setPc; split <;> rfl
@[simp] theorem State.setPc_faultOpcode (s : State) (t : Word) : (s.setPc t).faultOpcode = s.faultOpcode := by
  unfold State.setPc; split <;> rfl
@[simp] theorem State.setPc_faultInfo (s : State) (t : Word) : (s.setPc t).faultInfo = s.faultInfo := by
  unfold State.setPc; split <;> rfl
@[simp] theorem State.setPc_faultOpIdx (s : State) (t : Word) : (s.setPc t).faultOpIdx = s.faultOpIdx := by
  unfold State.setPc; split <;> rfl
@[simp] theorem State.setPc_cfg (s : State) (t : Word) : (s.setPc t).cfg = s.cfg := by
  unfold State.setPc; split <;> rfl
@[simp] theorem State.setPc_emitted (s : State) (t : Word) : (s.setPc t).emitted = s.emitted := by
  unfold State.setPc; split <;> rfl
@[simp] theorem State.setPc_delivered (s : State) (t : Word) : (s.setPc t).delivered = s.delivered := by
  unfold State.setPc; split <;> rfl
@[simp] theorem State.setPc_script (s : State) (t : Word) : (s.setPc t).script = s.script := by
  unfold State.setPc; split <;> rfl

@[simp] theorem State.advance_pc (s : State) (n : Word) : (s.advance n).pc = s.pc + n :=
  State.setPc_pc s (s.pc + n)
@[simp] theorem State.advance_regs (s : State) (n : Word) : (s.advance n).regs = s.regs :=
  State.setPc_regs s (s.pc + n)
@[simp] theorem State.advance_stack (s : State) (n : Word) : (s.advance n).stack = s.stack :=
  State.setPc_stack s (s.pc + n)
@[simp] theorem State.advance_mem (s : State) (n : Word) : (s.advance n).mem = s.mem :=
  State.setPc_mem s (s.pc + n)
@[simp] theorem State.advance_inBuf (s : State) (n : Word) : (s.advance n).inBuf = s.inBuf :=
  State.setPc_inBuf s (s.pc + n)
@[simp] theorem State.advance_faultCause (s : State) (n : Word) : (s.advance n).faultCause = s.faultCause :=
  State.setPc_faultCause s (s.pc + n)
@[simp] theorem State.advance_faultPc (s : State) (n : Word) : (s.advance n).faultPc = s.faultPc :=
  State.setPc_faultPc s (s.pc + n)
@[simp] theorem State.advance_faultOpcode (s : State) (n : Word) : (s.advance n).faultOpcode = s.faultOpcode :=
  State.setPc_faultOpcode s (s.pc + n)
@[simp] theorem State.advance_faultInfo (s : State) (n : Word) : (s.advance n).faultInfo = s.faultInfo :=
  State.setPc_faultInfo s (s.pc + n)
@[simp] theorem State.advance_faultOpIdx (s : State) (n : Word) : (s.advance n).faultOpIdx = s.faultOpIdx :=
  State.setPc_faultOpIdx s (s.pc + n)
@[simp] theorem State.advance_cfg (s : State) (n : Word) : (s.advance n).cfg = s.cfg :=
  State.setPc_cfg s (s.pc + n)
@[simp] theorem State.advance_emitted (s : State) (n : Word) : (s.advance n).emitted = s.emitted :=
  State.setPc_emitted s (s.pc + n)
@[simp] theorem State.advance_delivered (s : State) (n : Word) : (s.advance n).delivered = s.delivered :=
  State.setPc_delivered s (s.pc + n)
@[simp] theorem State.advance_script (s : State) (n : Word) : (s.advance n).script = s.script :=
  State.setPc_script s (s.pc + n)

theorem State.setPc_of_le (s : State) (t : Word) (h : t.toNat ≤ literalMax) : s.setPc t = { s with pc := t } :=
  if_pos h

theorem State.setPc_of_gt (s : State) (t : Word) (h : literalMax < t.toNat) :
    s.setPc t = { s with pc := t, rs := .halted, haltCause := .pcRange } :=
  if_neg (Nat.not_le.mpr h)

/-! ### Registers -/

theorem State.getReg_setReg (s : State) (r q : Reg) (v : Word) :
    (s.setReg r v).getReg q = if r = q then v else s.getReg q := by
  simp [State.getReg, State.setReg, Vector.getElem_set, Fin.ext_iff]

@[simp] theorem State.getReg_setReg_self (s : State) (r : Reg) (v : Word) : (s.setReg r v).getReg r = v := by
  simp [State.getReg_setReg]

theorem State.getReg_setReg_other (s : State) (r q : Reg) (v : Word) (h : r ≠ q) :
    (s.setReg r v).getReg q = s.getReg q := by
  simp [State.getReg_setReg, h]

end Sys2Proof.Machine
end

