-- ==== Sys2Proof/Laws/Ops.lean ====
section
/-! SUPPORT. One lemma per shared operation, saying all it can do; proofs about an instruction cite these. -/

namespace Sys2Proof.Machine

/-! ### Stack and input buffer -/

/-- Push: refused exactly where the depth is finite and reached; else one entry more. -/
theorem State.pushStack_cases (s : State) (v : Word) :
    (s.cfg.stackDepth = .bounded s.stack.length ∧ s.pushStack v = none) ∨
    (s.cfg.stackDepth ≠ .bounded s.stack.length ∧ s.pushStack v = some { s with stack := s.stack ++ [v] }) := by
  unfold State.pushStack depthFull
  cases s.cfg.stackDepth with
  | unbounded => right; exact ⟨by simp, rfl⟩
  | bounded n =>
    by_cases h : s.stack.length = n
    · left; simp [h]
    · right; simp [h, Ne.symm h]

/-- Pop: nothing on an empty stack; else the last entry and the state without it. -/
theorem State.popStack_cases (s : State) :
    (s.stack = [] ∧ s.popStack = none) ∨
    (∃ below v, s.stack = below ++ [v] ∧ s.popStack = some (v, { s with stack := below })) := by
  rcases List.eq_nil_or_concat s.stack with h | ⟨below, v, h⟩
  · left; simp [State.popStack, h]
  · right
    rw [List.concat_eq_append] at h
    refine ⟨below, v, h, ?_⟩
    simp [State.popStack, h]

/-- Taking input: nothing from an empty buffer; else the first code and the state without it. -/
theorem State.takeInput_cases (s : State) :
    (s.inBuf = [] ∧ s.takeInput = none) ∨
    (∃ ch rest, s.inBuf = ch :: rest ∧ s.takeInput = some (ch, { s with inBuf := rest })) := by
  unfold State.takeInput
  cases h : s.inBuf with
  | nil => left; exact ⟨rfl, rfl⟩
  | cons ch rest => right; exact ⟨ch, rest, rfl, rfl⟩

/-! ### The pc update -/

/-- The pc update: the run goes on, or it halts with PC_RANGE. -/
theorem State.setPc_cases (s : State) (t : Word) :
    (t.toNat ≤ literalMax ∧ s.setPc t = { s with pc := t }) ∨
    (literalMax < t.toNat ∧ s.setPc t = { s with pc := t, rs := .halted, haltCause := .pcRange }) := by
  by_cases h : t.toNat ≤ literalMax
  · exact .inl ⟨h, State.setPc_of_le s t h⟩
  · exact .inr ⟨Nat.lt_of_not_le h, State.setPc_of_gt s t (Nat.lt_of_not_le h)⟩

/-! ### Operands -/

theorem withValue_of_some (op : Word) (k : BitVec 2) (o : Operand) (s : State) (cont : Word → Result) (v : Word)
    (h : resolve s o = some v) : withValue op k o s cont = cont v := by
  simp [withValue, h]

theorem withValue_of_none (op : Word) (k : BitVec 2) (o : Operand) (s : State) (cont : Word → Result)
    (h : resolve s o = none) : withValue op k o s cont = .next (s.raise .invalidOperand op o.toWord k) := by
  simp [withValue, h, fail]

theorem withDest_of_some (op : Word) (k : BitVec 2) (o : Operand) (s : State) (cont : Reg → Result) (r : Reg)
    (h : dest o = some r) : withDest op k o s cont = cont r := by
  simp [withDest, h]

theorem withDest_of_none (op : Word) (k : BitVec 2) (o : Operand) (s : State) (cont : Reg → Result)
    (h : dest o = none) : withDest op k o s cont = .next (s.raise .invalidOperand op o.toWord k) := by
  simp [withDest, h, fail]

/-- A value operand's check: it gives its value to what follows, or it is invalid and the step fails. -/
theorem withValue_cases (op : Word) (k : BitVec 2) (o : Operand) (s : State) (cont : Word → Result) :
    (∃ v, resolve s o = some v ∧ withValue op k o s cont = cont v) ∨
    (resolve s o = none ∧ withValue op k o s cont = .next (s.raise .invalidOperand op o.toWord k)) := by
  cases h : resolve s o with
  | some v => exact .inl ⟨v, rfl, withValue_of_some op k o s cont v h⟩
  | none => exact .inr ⟨rfl, withValue_of_none op k o s cont h⟩

/-- A destination operand's check: it gives its register to what follows, or the step fails. -/
theorem withDest_cases (op : Word) (k : BitVec 2) (o : Operand) (s : State) (cont : Reg → Result) :
    (∃ r, o = .register r ∧ withDest op k o s cont = cont r) ∨
    (dest o = none ∧ withDest op k o s cont = .next (s.raise .invalidOperand op o.toWord k)) := by
  cases o with
  | literal v => exact .inr ⟨rfl, rfl⟩
  | register r => exact .inl ⟨r, rfl, rfl⟩
  | invalid w => exact .inr ⟨rfl, rfl⟩

/-! ### Memory access -/

theorem Memory.memRead_of_le (m : Memory) (addr : Word) (h : addr.toNat ≤ literalMax) :
    m.memRead addr = some (m.readWord addr.toNat) :=
  if_neg (Nat.not_lt.mpr h)

theorem Memory.memRead_of_gt (m : Memory) (addr : Word) (h : literalMax < addr.toNat) : m.memRead addr = none :=
  if_pos h

theorem Memory.memWrite_of_le (m : Memory) (addr v : Word) (h : addr.toNat ≤ literalMax) :
    m.memWrite addr v = some (m.writeWord addr.toNat v) :=
  if_neg (Nat.not_lt.mpr h)

theorem Memory.memWrite_of_gt (m : Memory) (addr v : Word) (h : literalMax < addr.toNat) : m.memWrite addr v = none :=
  if_pos h

/-- Every memory operation of the CORE keeps the canonical form. -/
theorem Memory.memWrite_wf (m m' : Memory) (addr v : Word) (h : m.wf = true) (hw : m.memWrite addr v = some m') :
    m'.wf = true := by
  by_cases ha : addr.toNat ≤ literalMax
  · rw [Memory.memWrite_of_le m addr v ha] at hw
    cases hw
    exact Memory.writeWord_wf m addr.toNat v h ha
  · rw [Memory.memWrite_of_gt m addr v (Nat.lt_of_not_le ha)] at hw
    cases hw

end Sys2Proof.Machine
end

