-- ==== Sys2Proof/Laws/Exec.lean ====
section
/-! SUPPORT. What an instruction can do, said once: `Effect i s t` lists every way in which `exec i s` answers the next
state `t`, and `exec_effect` proves that there is no other. Frames and invariants follow by cases on it. -/

namespace Sys2Proof.Machine

/-- Every way in which an instruction ends: a fault that commits nothing, or its own effect. -/
inductive Effect : Instr → State → State → Prop where
  | fault (i : Instr) (s : State) (cause : FaultCause) (info : Word) (k : BitVec 2) (h : cause ≠ .none) :
      Effect i s (s.raise cause i.opcode info k)
  | halt (s : State) : Effect .halt s (s.haltRun .haltInstr)
  | set (s : State) (r : Reg) (b : Operand) (v : Word) (hb : resolve s b = some v) :
      Effect (.set (.register r) b) s ((s.setReg r v).advance 3)
  | push (s : State) (a : Operand) (v : Word) (ha : resolve s a = some v)
      (room : s.cfg.stackDepth ≠ .bounded s.stack.length) :
      Effect (.push a) s (State.advance 2 { s with stack := s.stack ++ [v] })
  | pop (s : State) (r : Reg) (below : List Word) (v : Word) (h : s.stack = below ++ [v]) :
      Effect (.pop (.register r)) s (State.advance 2 (State.setReg r v { s with stack := below }))
  | eq (s : State) (r : Reg) (b c : Operand) (v : Word) :
      Effect (.eq (.register r) b c) s ((s.setReg r v).advance 4)
  | gt (s : State) (r : Reg) (b c : Operand) (v : Word) :
      Effect (.gt (.register r) b c) s ((s.setReg r v).advance 4)
  | jmp (s : State) (a : Operand) (t : Word) : Effect (.jmp a) s (s.setPc t)
  | jt (s : State) (a b : Operand) (t : Word) : Effect (.jt a b) s (s.setPc t)
  | jf (s : State) (a b : Operand) (t : Word) : Effect (.jf a b) s (s.setPc t)
  | add (s : State) (r : Reg) (b c : Operand) (v : Word) :
      Effect (.add (.register r) b c) s ((s.setReg r v).advance 4)
  | mult (s : State) (r : Reg) (b c : Operand) (v : Word) :
      Effect (.mult (.register r) b c) s ((s.setReg r v).advance 4)
  | mod (s : State) (r : Reg) (b c : Operand) (v : Word) :
      Effect (.mod (.register r) b c) s ((s.setReg r v).advance 4)
  | and (s : State) (r : Reg) (b c : Operand) (v : Word) :
      Effect (.and (.register r) b c) s ((s.setReg r v).advance 4)
  | or (s : State) (r : Reg) (b c : Operand) (v : Word) :
      Effect (.or (.register r) b c) s ((s.setReg r v).advance 4)
  | not (s : State) (r : Reg) (b : Operand) (v : Word) :
      Effect (.not (.register r) b) s ((s.setReg r v).advance 3)
  | rmem (s : State) (r : Reg) (b : Operand) (addr : Word) (hb : resolve s b = some addr) (h : addr.toNat ≤ literalMax) :
      Effect (.rmem (.register r) b) s ((s.setReg r (s.mem.readWord addr.toNat)).advance 3)
  | wmem (s : State) (a b : Operand) (addr v : Word) (ha : resolve s a = some addr) (hb : resolve s b = some v)
      (h : addr.toNat ≤ literalMax) :
      Effect (.wmem a b) s (State.advance 3 { s with mem := s.mem.writeWord addr.toNat v })
  | call (s : State) (a : Operand) (t : Word) (ha : resolve s a = some t)
      (room : s.cfg.stackDepth ≠ .bounded s.stack.length) :
      Effect (.call a) s (State.setPc t { s with stack := s.stack ++ [s.pc + 2] })
  | retHalt (s : State) (h : s.stack = []) : Effect .ret s (s.haltRun .retEmpty)
  | ret (s : State) (below : List Word) (t : Word) (h : s.stack = below ++ [t]) :
      Effect .ret s (State.setPc t { s with stack := below })
  | out (s : State) (a : Operand) (v : Word) (ha : resolve s a = some v) :
      Effect (.out a) s ((s.emit v).advance 2)
  | wait (s : State) (r : Reg) (h : s.inBuf = []) : Effect (.inp (.register r)) s s.waitForInput
  | inp (s : State) (r : Reg) (ch : Word) (rest : List Word) (h : s.inBuf = ch :: rest) :
      Effect (.inp (.register r)) s (State.advance 2 (State.setReg r ch { s with inBuf := rest }))
  | noop (s : State) : Effect .noop s (s.advance 1)

/-- A value operand's check within an instruction. -/
theorem withValue_effect (i : Instr) (k : BitVec 2) (o : Operand) (s t : State) (cont : Word → Result)
    (h : withValue i.opcode k o s cont = .next t) (hc : ∀ v, resolve s o = some v → cont v = .next t → Effect i s t) :
    Effect i s t := by
  rcases withValue_cases i.opcode k o s cont with ⟨v, hv, e⟩ | ⟨_, e⟩
  · exact hc v hv (e ▸ h)
  · rw [e] at h
    cases h
    exact .fault i s _ _ _ (by decide)

/-- A destination operand's check within an instruction. -/
theorem withDest_effect (i : Instr) (k : BitVec 2) (o : Operand) (s t : State) (cont : Reg → Result)
    (h : withDest i.opcode k o s cont = .next t) (hc : ∀ r, o = .register r → cont r = .next t → Effect i s t) :
    Effect i s t := by
  rcases withDest_cases i.opcode k o s cont with ⟨r, hr, e⟩ | ⟨_, e⟩
  · exact hc r hr (e ▸ h)
  · rw [e] at h
    cases h
    exact .fault i s _ _ _ (by decide)

/-- The operand checks of the shape D V V. -/
theorem withDVV_effect (i : Instr) (a b c : Operand) (s t : State) (cont : Reg → Word → Word → Result)
    (h : withDVV i a b c s cont = .next t)
    (hc : ∀ r vb vc, a = .register r → cont r vb vc = .next t → Effect i s t) : Effect i s t :=
  withDest_effect i 1 a s t _ h fun r hr h1 =>
    withValue_effect i 2 b s t _ h1 fun vb _ h2 =>
      withValue_effect i 3 c s t _ h2 fun vc _ h3 => hc r vb vc hr h3

/-- The operand checks of the shape D V. -/
theorem withDV_effect (i : Instr) (a b : Operand) (s t : State) (cont : Reg → Word → Result)
    (h : withDV i a b s cont = .next t)
    (hc : ∀ r vb, a = .register r → resolve s b = some vb → cont r vb = .next t → Effect i s t) : Effect i s t :=
  withDest_effect i 1 a s t _ h fun r hr h1 =>
    withValue_effect i 2 b s t _ h1 fun vb hb h2 => hc r vb hr hb h2

/-- The operand checks of the shape V V. -/
theorem withVV_effect (i : Instr) (a b : Operand) (s t : State) (cont : Word → Word → Result)
    (h : withVV i a b s cont = .next t)
    (hc : ∀ va vb, resolve s a = some va → resolve s b = some vb → cont va vb = .next t → Effect i s t) :
    Effect i s t :=
  withValue_effect i 1 a s t _ h fun va ha h1 =>
    withValue_effect i 2 b s t _ h1 fun vb hb h2 => hc va vb ha hb h2

/-- What an instruction answers as its next state is one of its effects. -/
theorem exec_effect (i : Instr) (s t : State) (h : exec i s = .next t) : Effect i s t := by
  cases i with
  | halt => cases h; exact .halt s
  | set a b =>
    exact withDV_effect _ a b s t _ h fun r v hr hb h1 => by cases hr; cases h1; exact .set s r b v hb
  | push a =>
    refine withValue_effect _ 1 a s t _ h fun v hv h1 => ?_
    rcases s.pushStack_cases v with ⟨_, e⟩ | ⟨room, e⟩ <;> rw [e] at h1 <;> cases h1
    · exact .fault _ s _ _ _ (by decide)
    · exact .push s a v hv room
  | pop a =>
    refine withDest_effect _ 1 a s t _ h fun r hr h1 => ?_
    rcases s.popStack_cases with ⟨_, e⟩ | ⟨below, v, hs, e⟩ <;> rw [e] at h1 <;> cases h1
    · exact .fault _ s _ _ _ (by decide)
    · cases hr; exact .pop s r below v hs
  | eq a b c => exact withDVV_effect _ a b c s t _ h fun r _ _ hr h1 => by cases hr; cases h1; exact .eq s r b c _
  | gt a b c => exact withDVV_effect _ a b c s t _ h fun r _ _ hr h1 => by cases hr; cases h1; exact .gt s r b c _
  | jmp a => exact withValue_effect _ 1 a s t _ h fun v _ h1 => by cases h1; exact .jmp s a v
  | jt a b =>
    refine withVV_effect _ a b s t _ h fun va vb _ _ h1 => ?_
    cases hc : nonZero va <;> simp only [hc] at h1 <;> cases h1
    · exact .jt s a b (s.pc + 3)
    · exact .jt s a b vb
  | jf a b =>
    refine withVV_effect _ a b s t _ h fun va vb _ _ h1 => ?_
    cases hc : nonZero va <;> simp only [hc] at h1 <;> cases h1
    · exact .jf s a b vb
    · exact .jf s a b (s.pc + 3)
  | add a b c => exact withDVV_effect _ a b c s t _ h fun r _ _ hr h1 => by cases hr; cases h1; exact .add s r b c _
  | mult a b c => exact withDVV_effect _ a b c s t _ h fun r _ _ hr h1 => by cases hr; cases h1; exact .mult s r b c _
  | mod a b c =>
    refine withDVV_effect _ a b c s t _ h fun r vb vc hr h1 => ?_
    by_cases hz : vc = 0 <;> simp only [hz, if_true, if_false] at h1 <;> cases h1
    · exact .fault _ s _ _ _ (by decide)
    · cases hr; exact .mod s r b c _
  | and a b c => exact withDVV_effect _ a b c s t _ h fun r _ _ hr h1 => by cases hr; cases h1; exact .and s r b c _
  | or a b c => exact withDVV_effect _ a b c s t _ h fun r _ _ hr h1 => by cases hr; cases h1; exact .or s r b c _
  | not a b => exact withDV_effect _ a b s t _ h fun r _ hr _ h1 => by cases hr; cases h1; exact .not s r b _
  | rmem a b =>
    refine withDV_effect _ a b s t _ h fun r addr hr hb h1 => ?_
    by_cases ha : addr.toNat ≤ literalMax
    · rw [Memory.memRead_of_le _ _ ha] at h1
      cases hr; cases h1
      exact .rmem s r b addr hb ha
    · rw [Memory.memRead_of_gt _ _ (Nat.lt_of_not_le ha)] at h1
      cases h1
      exact .fault _ s _ _ _ (by decide)
  | wmem a b =>
    refine withVV_effect _ a b s t _ h fun addr v ha hb h1 => ?_
    by_cases hle : addr.toNat ≤ literalMax
    · rw [Memory.memWrite_of_le _ _ _ hle] at h1
      cases h1
      exact .wmem s a b addr v ha hb hle
    · rw [Memory.memWrite_of_gt _ _ _ (Nat.lt_of_not_le hle)] at h1
      cases h1
      exact .fault _ s _ _ _ (by decide)
  | call a =>
    refine withValue_effect _ 1 a s t _ h fun v hv h1 => ?_
    rcases s.pushStack_cases (s.pc + 2) with ⟨_, e⟩ | ⟨room, e⟩ <;> rw [e] at h1 <;> cases h1
    · exact .fault _ s _ _ _ (by decide)
    · exact .call s a v hv room
  | ret =>
    have h1 : execRet s = .next t := h
    unfold execRet at h1
    rcases s.popStack_cases with ⟨hs, e⟩ | ⟨below, v, hs, e⟩ <;> rw [e] at h1 <;> cases h1
    · exact .retHalt s hs
    · exact .ret s below v hs
  | out a => exact withValue_effect _ 1 a s t _ h fun v hv h1 => by cases h1; exact .out s a v hv
  | inp a =>
    refine withDest_effect _ 1 a s t _ h fun r hr h1 => ?_
    cases hr
    rcases s.takeInput_cases with ⟨hs, e⟩ | ⟨ch, rest, hs, e⟩ <;> rw [e] at h1 <;> cases h1
    · exact .wait s r hs
    · exact .inp s r ch rest hs
  | noop => cases h; exact .noop s

end Sys2Proof.Machine
end

