-- ==== Sys2Proof/Laws/PerInstr.lean ====
section
/-! SUPPORT. Statements for all instructions, one lemma per constructor. The family `Shape`: the opcode of an instruction
is one of 0..21 and its encoding has as many words as its length, 1 to 4 (R10, R100, R102). -/

namespace Sys2Proof.Laws.Shape

/-- The shape of an instruction's encoding. -/
def Statement (i : Instr) : Prop :=
  i.opcode.toNat ≤ 21 ∧ (encode i).length = i.length ∧ 1 ≤ i.length ∧ i.length ≤ 4

theorem halt : Statement .halt := ⟨by decide, rfl, by decide, by decide⟩
theorem set (a b : Operand) : Statement (.set a b) :=
  ⟨Nat.le_of_ble_eq_true rfl, rfl, Nat.le_of_ble_eq_true rfl, Nat.le_of_ble_eq_true rfl⟩
theorem push (a : Operand) : Statement (.push a) :=
  ⟨Nat.le_of_ble_eq_true rfl, rfl, Nat.le_of_ble_eq_true rfl, Nat.le_of_ble_eq_true rfl⟩
theorem pop (a : Operand) : Statement (.pop a) :=
  ⟨Nat.le_of_ble_eq_true rfl, rfl, Nat.le_of_ble_eq_true rfl, Nat.le_of_ble_eq_true rfl⟩
theorem eq (a b c : Operand) : Statement (.eq a b c) :=
  ⟨Nat.le_of_ble_eq_true rfl, rfl, Nat.le_of_ble_eq_true rfl, Nat.le_of_ble_eq_true rfl⟩
theorem gt (a b c : Operand) : Statement (.gt a b c) :=
  ⟨Nat.le_of_ble_eq_true rfl, rfl, Nat.le_of_ble_eq_true rfl, Nat.le_of_ble_eq_true rfl⟩
theorem jmp (a : Operand) : Statement (.jmp a) :=
  ⟨Nat.le_of_ble_eq_true rfl, rfl, Nat.le_of_ble_eq_true rfl, Nat.le_of_ble_eq_true rfl⟩
theorem jt (a b : Operand) : Statement (.jt a b) :=
  ⟨Nat.le_of_ble_eq_true rfl, rfl, Nat.le_of_ble_eq_true rfl, Nat.le_of_ble_eq_true rfl⟩
theorem jf (a b : Operand) : Statement (.jf a b) :=
  ⟨Nat.le_of_ble_eq_true rfl, rfl, Nat.le_of_ble_eq_true rfl, Nat.le_of_ble_eq_true rfl⟩
theorem add (a b c : Operand) : Statement (.add a b c) :=
  ⟨Nat.le_of_ble_eq_true rfl, rfl, Nat.le_of_ble_eq_true rfl, Nat.le_of_ble_eq_true rfl⟩
theorem mult (a b c : Operand) : Statement (.mult a b c) :=
  ⟨Nat.le_of_ble_eq_true rfl, rfl, Nat.le_of_ble_eq_true rfl, Nat.le_of_ble_eq_true rfl⟩
theorem mod (a b c : Operand) : Statement (.mod a b c) :=
  ⟨Nat.le_of_ble_eq_true rfl, rfl, Nat.le_of_ble_eq_true rfl, Nat.le_of_ble_eq_true rfl⟩
theorem and (a b c : Operand) : Statement (.and a b c) :=
  ⟨Nat.le_of_ble_eq_true rfl, rfl, Nat.le_of_ble_eq_true rfl, Nat.le_of_ble_eq_true rfl⟩
theorem or (a b c : Operand) : Statement (.or a b c) :=
  ⟨Nat.le_of_ble_eq_true rfl, rfl, Nat.le_of_ble_eq_true rfl, Nat.le_of_ble_eq_true rfl⟩
theorem not (a b : Operand) : Statement (.not a b) :=
  ⟨Nat.le_of_ble_eq_true rfl, rfl, Nat.le_of_ble_eq_true rfl, Nat.le_of_ble_eq_true rfl⟩
theorem rmem (a b : Operand) : Statement (.rmem a b) :=
  ⟨Nat.le_of_ble_eq_true rfl, rfl, Nat.le_of_ble_eq_true rfl, Nat.le_of_ble_eq_true rfl⟩
theorem wmem (a b : Operand) : Statement (.wmem a b) :=
  ⟨Nat.le_of_ble_eq_true rfl, rfl, Nat.le_of_ble_eq_true rfl, Nat.le_of_ble_eq_true rfl⟩
theorem call (a : Operand) : Statement (.call a) :=
  ⟨Nat.le_of_ble_eq_true rfl, rfl, Nat.le_of_ble_eq_true rfl, Nat.le_of_ble_eq_true rfl⟩
theorem ret : Statement .ret := ⟨by decide, rfl, by decide, by decide⟩
theorem out (a : Operand) : Statement (.out a) :=
  ⟨Nat.le_of_ble_eq_true rfl, rfl, Nat.le_of_ble_eq_true rfl, Nat.le_of_ble_eq_true rfl⟩
theorem inp (a : Operand) : Statement (.inp a) :=
  ⟨Nat.le_of_ble_eq_true rfl, rfl, Nat.le_of_ble_eq_true rfl, Nat.le_of_ble_eq_true rfl⟩
theorem noop : Statement .noop := ⟨by decide, rfl, by decide, by decide⟩

end Sys2Proof.Laws.Shape
end

