-- ==== Sys2Proof/Tests/Slice0.lean ====
section
/-! SUPPORT. The model's own tests. Every expected result is taken from spec/95_test_vectors.md (the vector is named) or
from the encoding tables of 30_encoding.md; the witnesses at the end meet the hypotheses of the obligations. -/

namespace Sys2Proof.Tests

open Sys2Proof.Machine Sys2Proof.Claim

/-! ### Helpers -/

/-- A RUNNING core at `pc` with `ws` stored there and zeros elsewhere. -/
def running (pc : Nat) (ws : List Word) : State :=
  { State.afterReset Config.source ((Memory.ofImage []).writeWords pc ws) with pc := BitVec.ofNat 16 pc, rs := .running }

/-- The same core with register `r` preset. -/
def preset (r : Reg) (v : Word) (s : State) : State := { s with regs := s.regs.set r v }

/-- The same core with a stack. -/
def stacked (st : List Word) (s : State) : State := { s with stack := st }

/-- The same core with a finite STACK_DEPTH. -/
def depth (n : Nat) (s : State) : State := { s with cfg := { s.cfg with stackDepth := .bounded n } }

/-- What one step leaves, as seen by `f`. -/
def after {α : Type} (s : State) (f : State → α) : Option α :=
  match step s with
  | .next t => some (f t)
  | .fault _ => none
  | .refused _ => none

/-- The pc and a register. -/
def pcAnd (r : Reg) (t : State) : Word × Word := (t.pc, t.regs[r])

/-- FAULT_CAUSE, FAULT_PC, FAULT_OPCODE, FAULT_INFO and FAULT_OPIDX, if the run has failed. -/
def failure (t : State) : Option (FaultCause × Word × Word × Word × BitVec 2) :=
  if t.rs = .failed then some (t.faultCause, t.faultPc, t.faultOpcode, t.faultInfo, t.faultOpIdx) else none

/-- HALT_CAUSE and the pc, if the run has halted. -/
def haltedAt (t : State) : Option (HaltCause × Word) :=
  if t.rs = .halted then some (t.haltCause, t.pc) else none

/-! ### WellFormed: an ill-formed term for the one check, and terms that pass it -/

theorem test_illFormed_invalid_that_is_literal : (Instr.push (.invalid 5)).wellFormed = false := by decide
theorem test_illFormed_invalid_that_is_register :
    (Instr.add (.register 0) (.literal 1) (.invalid 32775)).wellFormed = false := by decide
theorem test_wellFormed_first_invalid : (Instr.push (.invalid 32776)).wellFormed = true := by decide

/-! ### Decoding: words written out from 30_encoding.md R101, R103 and R109 -/

theorem test_decode_F0 :
    decode [0b0000000000000000] = .ok (.halt, []) ∧ decode [0b0000000000010010] = .ok (.ret, []) ∧
    decode [0b0000000000010101] = .ok (.noop, []) := by decide
theorem test_decode_register_stack :
    decode [0b0000000000000001, 0b1000000000000111, 0b0111111111111111] =
      .ok (.set (.register 7) (.literal 32767), []) ∧
    decode [0b0000000000000010, 0b1000000000000011, 5] = .ok (.push (.register 3), [5]) ∧
    decode [0b0000000000000011, 0b0000000001100100] = .ok (.pop (.literal 100), []) := by decide
theorem test_decode_comparison :
    decode [0b0000000000000100, 0b1000000000000001, 0b1000000000000010, 0b0000000000000101] =
      .ok (.eq (.register 1) (.register 2) (.literal 5), []) ∧
    decode [0b0000000000000101, 0b1000000000000000, 0b0000000000000110, 0b1000000000001000] =
      .ok (.gt (.register 0) (.literal 6) (.invalid 32776), []) := by decide
theorem test_decode_control :
    decode [0b0000000000000110, 0b0000000001100100] = .ok (.jmp (.literal 100), []) ∧
    decode [0b0000000000000111, 0b1000000000000010, 0b0000000001100100] =
      .ok (.jt (.register 2) (.literal 100), []) ∧
    decode [0b0000000000001000, 0b0000000000000000, 0b1000000000000110] =
      .ok (.jf (.literal 0) (.register 6), []) ∧
    decode [0b0000000000010001, 0b1000000000000101] = .ok (.call (.register 5), []) := by decide
theorem test_decode_arithmetic :
    decode [0b0000000000001001, 0b1000000000000000, 0b1000000000000001, 0b0000000000000100] =
      .ok (.add (.register 0) (.register 1) (.literal 4), []) ∧
    decode [0b0000000000001010, 0b1000000000000001, 0b0000000000000011, 0b1000000000000100] =
      .ok (.mult (.register 1) (.literal 3) (.register 4), []) ∧
    decode [0b0000000000001011, 0b1000000000000010, 0b1000000000000011, 0b0000000000001010] =
      .ok (.mod (.register 2) (.register 3) (.literal 10), []) := by decide
theorem test_decode_logic :
    decode [0b0000000000001100, 0b1000000000000000, 0b0111111111111111, 0b0101010101010101] =
      .ok (.and (.register 0) (.literal 32767) (.literal 21845), []) ∧
    decode [0b0000000000001101, 0b1000000000000000, 0b1000000000000001, 0b0000000000000001] =
      .ok (.or (.register 0) (.register 1) (.literal 1), []) ∧
    decode [0b0000000000001110, 0b1000000000000000, 0b1000000000000001] =
      .ok (.not (.register 0) (.register 1), []) := by decide
theorem test_decode_memory :
    decode [0b0000000000001111, 0b1000000000000001, 0b0000000111110100] =
      .ok (.rmem (.register 1) (.literal 500), []) ∧
    decode [0b0000000000010000, 0b0000000111110100, 0b1000000000000011] =
      .ok (.wmem (.literal 500) (.register 3), []) := by decide
theorem test_decode_io :
    decode [0b0000000000010011, 0b1000000000000000] = .ok (.out (.register 0), []) ∧
    decode [0b0000000000010100, 0b1000000000000000] = .ok (.inp (.register 0), []) := by decide
theorem test_decode_rejects :
    decode [22] = .error (.illegalOpcode 22) ∧ decode [32768] = .error (.illegalOpcode 32768) ∧
    decode [9, 32768, 32769] = .error (.noOperand 9 3) ∧ decode [] = .error .noOpcode := by decide
/-- Bit 0 is the least significant bit of the first word; the bits above `nbits` are 0. -/
theorem test_decodeTableWord :
    decodeTableWord 48 (7 + 32770 * 65536 + 100 * 65536 * 65536) = some (.jt (.register 2) (.literal 100)) ∧
    decodeTableWord 16 (9 + 5 * 65536) = some (.add (.literal 0) (.literal 0) (.literal 0)) := by decide
/-- R303: a little-endian image, and the words of the source's end-to-end program. -/
theorem test_imageOfBytes : imageOfBytes [9, 0, 0, 128, 1, 128, 4, 0] = [9, 32768, 32769, 4] := by decide

/-! ### set, push, pop -/

theorem test_set_copies_register :  -- L2-S2
    after (preset 0 7 (running 0 [1, 32769, 32768])) (pcAnd 1) = some (3, 7) := by decide
theorem test_set_past_memory :  -- L2-S6
    after (running 32766 [1, 32768]) failure = some (some (.outOfBounds, 32766, 1, 32768, 2)) := by decide
theorem test_push_keeps_bit15 :  -- L2-S8
    after (preset 3 40000 (running 0 [2, 32771])) (fun t => (t.stack, t.pc)) = some ([40000], 2) := by decide
theorem test_push_overflow :  -- L2-S9
    after (depth 2 (stacked [1, 2] (running 0 [2, 9]))) (fun t => (t.rs, t.faultCause, t.faultInfo, t.stack)) =
      some (.failed, .stackOverflow, 9, [1, 2]) := by decide
theorem test_pop_takes_last :  -- L2-S10
    after (stacked [7, 9] (running 4 [3, 32770])) (fun t => (t.regs[2], t.stack, t.pc)) = some (9, [7], 6) := by decide
theorem test_pop_literal_before_underflow :  -- L2-S12
    after (running 0 [3, 100]) failure = some (some (.invalidOperand, 0, 3, 100, 1)) := by decide

/-! ### eq, gt -/

theorem test_eq_same_register :  -- L2-C3
    after (preset 1 9 (running 0 [4, 32769, 32769, 32769])) (pcAnd 1) = some (4, 1) := by decide
theorem test_eq_third_invalid :  -- L2-C8
    after (running 0 [4, 32768, 1, 32776]) failure = some (some (.invalidOperand, 0, 4, 32776, 3)) := by decide
theorem test_gt_unsigned :  -- L2-C6
    after (preset 1 40000 (running 0 [5, 32768, 32769, 5])) (pcAnd 0) = some (4, 1) := by decide
theorem test_gt_strict :  -- L2-C5
    after (running 0 [5, 32768, 5, 5]) (pcAnd 0) = some (4, 0) := by decide

/-! ### halt, jmp, jt, jf, call, ret, noop -/

theorem test_halt : after (running 6 [0]) haltedAt = some (some (.haltInstr, 6)) := by decide  -- L2-T1
theorem test_jmp_out_of_range :  -- L2-T3
    after (preset 0 40000 (running 0 [6, 32768])) haltedAt = some (some (.pcRange, 40000)) := by decide
theorem test_jmp_past_memory :  -- L2-T5
    after (running 32767 [6]) failure = some (some (.outOfBounds, 32767, 6, 32768, 1)) := by decide
theorem test_jt_bit15_is_true :  -- L2-T8
    after (preset 0 32768 (running 8 [7, 32768, 20])) (fun t => t.pc) = some 20 := by decide
theorem test_jt_not_taken_checks_target :  -- L2-T11
    after (running 0 [7, 0, 32776]) failure = some (some (.invalidOperand, 0, 7, 32776, 2)) := by decide
theorem test_jf_taken : after (running 8 [8, 32768, 20]) (fun t => t.pc) = some 20 := by decide  -- L2-T12
theorem test_jf_bit15_not_taken :  -- L2-T14
    after (preset 0 32768 (running 8 [8, 32768, 20])) (fun t => t.pc) = some 11 := by decide
theorem test_call_out_of_range_keeps_push :  -- L2-T18
    after (preset 0 40000 (running 10 [17, 32768])) (fun t => (haltedAt t, t.stack)) =
      some (some (.pcRange, 40000), [12]) := by decide
theorem test_call_overflow :  -- L2-T17
    after (depth 1 (stacked [1] (running 10 [17, 50]))) (fun t => (t.faultCause, t.faultInfo, t.stack, t.pc)) =
      some (.stackOverflow, 12, [1], 10) := by decide
theorem test_ret_empty_halts :  -- L2-T20
    after (running 50 [18]) haltedAt = some (some (.retEmpty, 50)) := by decide
theorem test_ret_out_of_range :  -- L2-T21
    after (stacked [32768] (running 50 [18])) (fun t => (haltedAt t, t.stack)) =
      some (some (.pcRange, 32768), []) := by decide
theorem test_noop_off_the_top :  -- L2-T23
    after (running 32767 [21]) haltedAt = some (some (.pcRange, 32768)) := by decide

/-! ### add, mult, mod, and, or, not -/

theorem test_add_wraps_wide :  -- L2-A3
    after (preset 1 65535 (preset 2 65535 (running 0 [9, 32768, 32769, 32770]))) (pcAnd 0) =
      some (4, 32766) := by decide
theorem test_add_first_invalid_reported :  -- L2-A24
    after (running 0 [9, 5, 32776, 0]) failure = some (some (.invalidOperand, 0, 9, 5, 1)) := by decide
theorem test_mult_wraps :  -- L2-A6
    after (running 0 [10, 32768, 32767, 32767]) (pcAnd 0) = some (4, 1) := by decide
theorem test_mod_wide :  -- L2-A10
    after (preset 1 65535 (preset 2 40000 (running 0 [11, 32768, 32769, 32770]))) (pcAnd 0) =
      some (4, 25535) := by decide
theorem test_mod_by_zero :  -- L2-A11
    after (running 0 [11, 32768, 7, 0]) failure = some (some (.divideByZero, 0, 11, 7, 0)) := by decide
theorem test_and_keeps_bit15 :  -- L2-A15
    after (preset 1 0xFFFF (preset 2 0x8001 (running 0 [12, 32768, 32769, 32770]))) (pcAnd 0) =
      some (4, 32769) := by decide
theorem test_or_keeps_bit15 :  -- L2-A18
    after (preset 1 0x8000 (running 0 [13, 32768, 32769, 1])) (pcAnd 0) = some (4, 32769) := by decide
theorem test_not_literal : after (running 0 [14, 32768, 12345]) (pcAnd 0) = some (3, 20422) := by decide  -- L2-A21
theorem test_not_keeps_bit15 :  -- L2-A22
    after (preset 1 65535 (running 0 [14, 32768, 32769])) (pcAnd 0) = some (3, 32768) := by decide

/-! ### rmem, wmem -/

theorem test_rmem_own_operand :  -- L2-M5
    after (running 0 [15, 32768, 1]) (pcAnd 0) = some (3, 32768) := by decide
theorem test_rmem_out_of_bounds :  -- L2-M3
    after (preset 1 32768 (running 0 [15, 32768, 32769])) failure =
      some (some (.outOfBounds, 0, 15, 32768, 0)) := by decide
theorem test_wmem_register_value :  -- L2-M6
    after (preset 3 7 (running 0 [16, 500, 32771])) (fun t => (t.mem.readWord 500, t.pc)) = some (7, 3) := by decide
theorem test_wmem_top_of_memory :  -- L2-M8
    after (running 0 [16, 32767, 1]) (fun t => t.mem.readWord 32767) = some 1 := by decide

/-! ### out, in -/

theorem test_out_wide_code :  -- L2-I2
    after (preset 0 40000 (running 0 [19, 32768])) (fun t => (t.emitted, t.pc)) = some ([40000], 2) := by decide
theorem test_in_waits :  -- L2-I4
    step (running 0 [20, 32768]) = .next { running 0 [20, 32768] with rs := .waitInput } := rfl
theorem test_in_takes_first :  -- L2-I6
    after { running 0 [20, 32768] with inBuf := [104, 105, 10] } (fun t => (t.regs[0], t.inBuf, t.pc)) =
      some (104, [105, 10], 2) := by decide

/-! ### Faults of the fetch, the host, the status port -/

theorem test_illegal_opcode :  -- L2-D2
    after (running 0 [32768]) failure = some (some (.illegalInstruction, 0, 32768, 32768, 0)) := by decide
/-- L2-I5: the delivered line has its terminator and the core runs again. -/
theorem test_deliver :
    after { running 0 [20, 32768] with rs := .waitInput, script := [.deliver [104, 105]] }
      (fun t => (t.inBuf, t.rs, t.pc)) = some ([104, 105, 10], .running, 0) := by decide
theorem test_abort_waiting :  -- L2-D5
    after { running 0 [20, 32768] with rs := .waitInput, script := [.abort] } (fun t => (t.rs, t.pc)) =
      some (.aborted, 0) := by decide
theorem test_load_pads :  -- L2-D9
    after { State.reset with script := [.load [5, 6]] } (fun t => (t.mem.readWord 0, t.mem.readWord 1, t.mem.readWord 2)) =
      some (5, 6, 0) := by decide
theorem test_status_port :
    (statusRead 0 (running 0 []), statusRead 2 (State.raise .stackOverflow 2 9 0 (running 0 [])), statusRead 7 State.reset) =
      (some 1, some 6, none) := by decide
theorem test_observer_port :
    (observe (.stackEntry 1) (stacked [7, 9] (running 0 [])), observe (.memoryWord 0) (running 0 [5]),
      observe (.memoryWord 32768) (running 0 [5])) = (some 9, some 5, none) := by decide
/-- L1-7b through the whole interface: from reset, load, start and one instruction. -/
theorem test_boot_and_run :
    (match Sys2Proof.core.run 3 { State.reset with script := [.load [18], .start] } with
      | .next t => haltedAt t
      | .fault _ => none
      | .refused _ => none) = some (.retEmpty, 0) := by decide
/-- A word placed after reset is fetched and run by the very next step. -/
theorem test_withFetchWord :
    after (State.reset.withFetchWord 64 (9 + 32768 * 65536 + 40 * 65536 * 65536 + 2 * 65536 * 65536 * 65536)) (pcAnd 0) =
      some (4, 42) := by decide

/-! ### Witnesses: a concrete state and operands that meet the hypotheses of each obligation -/

/-- A RUNNING core at `pc` runs the opcode word stored there. -/
theorem runsAt_running (pc : Nat) (op : Word) (ws : List Word) (hp : (BitVec.ofNat 16 pc).toNat ≤ 32767)
    (hw : (running pc (op :: ws)).mem.readWord (BitVec.ofNat 16 pc).toNat = op) :
    runsAt op (running pc (op :: ws)) (running pc (op :: ws)) :=
  ⟨rfl, hp, hw, [], rfl, rfl⟩

/-- The example core of the witnesses is a sound state. -/
theorem running_in_inv : (running 0 [20, 32768]).Inv :=
  { memCanonical := by decide
    paramsLegal := ⟨trivial, trivial⟩
    stackBounded := rfl
    inBufBounded := rfl
    pcRange := by decide
    idleAsReset := by decide
    waitsAtIn := by decide
    haltCauseIff := by decide
    faultCauseIff := by decide
    faultRegsZero := by decide
    faultAtPc := by decide }

theorem witness_DecodeOfEncode : (Instr.set (.register 7) (.invalid 32776)).wellFormed = true := by decide
theorem witness_EncodeOfDecode : decode [20, 32775, 1] = .ok (.inp (.register 7), [1]) := by decide
theorem witness_LengthFollowsOpcode :
    21 < (22 : Word).toNat ∧ (21 : Word).toNat ≤ 21 ∧ operandCount (21 : Word).toNat ≤ ([] : List Word).length ∧
    ([1, 2] : List Word).length < operandCount (4 : Word).toNat := by decide
theorem witness_OperandWordClasses :
    (32767 : Word).toNat ≤ 32767 ∧ 32768 ≤ (32768 : Word).toNat ∧ (32775 : Word).toNat ≤ 32775 ∧
    32776 ≤ (32776 : Word).toNat := by decide
theorem witness_FirstInvalidOperandReported :
    (checks (.jt (.literal 0) (.invalid 32776)))[1]? = some (.value, .invalid 32776) ∧
    fails .value (.invalid 32776) = true ∧
    ∀ c ∈ (checks (.jt (.literal 0) (.invalid 32776))).take 1, fails c.1 c.2 = false := by decide
theorem witness_StepRunsDecoded :
    (running 32766 [19, 65]).turn = .core [] ∧ (running 32766 [19, 65]).rs = .running ∧
    decode (wordsAtPc (running 32766 [19, 65])) = .ok (.out (.literal 65), []) := by decide
theorem witness_IllegalOpcodeFails :
    21 < (65535 : Word).toNat ∧ runsAt 65535 (running 32767 [65535]) (running 32767 [65535]) :=
  ⟨by decide, runsAt_running 32767 65535 [] (by decide) (by decide)⟩
theorem witness_OperandPastMemoryFails :
    (4 : Word).toNat ≤ 21 ∧ runsAt 4 (running 32765 [4, 32768, 1]) (running 32765 [4, 32768, 1]) ∧
    3 ≤ operandCount (4 : Word).toNat ∧ 32767 < (running 32765 [4, 32768, 1]).pc.toNat + 3 ∧
    (∀ j, j < 3 → (running 32765 [4, 32768, 1]).pc.toNat + j ≤ 32767) :=
  ⟨by decide, runsAt_running 32765 4 [32768, 1] (by decide) (by decide), by decide, by decide, by decide⟩
theorem witness_OnlyRunningCoreSteps : State.reset.rs ≠ .running ∧ State.reset.turn = .core [] := by decide
theorem witness_SoundStepIsSafe : (running 0 [20, 32768]).Inv := running_in_inv
theorem witness_StepKeepsInv :
    (running 0 [20, 32768]).Inv ∧ step (running 0 [20, 32768]) = .next { running 0 [20, 32768] with rs := .waitInput } :=
  ⟨running_in_inv, rfl⟩
theorem witness_ResetHasInv :
    depthLegal (.bounded 1) ∧ depthLegal .unbounded ∧ (Memory.ofImage [0, 65535]).wf = true :=
  ⟨Nat.le_refl 1, trivial, by decide⟩
theorem witness_FaultsArePrecise :
    (running 0 [22]).turn = .core [] ∧ (running 0 [22]).rs = .running ∧
    step (running 0 [22]) = .next (State.raise .illegalInstruction 22 22 0 (running 0 [22])) ∧
    (State.raise .illegalInstruction 22 22 0 (running 0 [22])).rs = .failed :=
  ⟨rfl, rfl, rfl, rfl⟩
theorem witness_RunStateTransitions :
    step (running 0 [0]) = .next (State.haltRun .haltInstr (running 0 [0])) := rfl
theorem witness_EndedRunsStayUnchanged :
    (State.haltRun .haltInstr (running 0 [0])).ended = true ∧
    (∀ rest, (State.haltRun .haltInstr (running 0 [0])).turn ≠ .host .reset rest) ∧
    step (State.haltRun .haltInstr (running 0 [0])) = .next (State.haltRun .haltInstr (running 0 [0])) :=
  ⟨rfl, fun _ => Turn.noConfusion, rfl⟩
theorem witness_MemoryFrame :
    resolve (running 0 []) (.literal 32767) = some 32767 ∧ resolve (running 0 []) (.literal 1) = some 1 ∧
    (32767 : Word).toNat ≤ 32767 ∧
    ∃ t, exec (.wmem (.literal 32767) (.literal 1)) (running 0 []) = .next t := ⟨rfl, rfl, by decide, _, rfl⟩
theorem witness_MemoryFrame_unstored : ¬ stores (.rmem (.register 0) (.literal 5)) (running 0 []) 10 := id
theorem witness_RegisterFrame :
    destination (.set (.register 1) (.literal 5)) ≠ some 0 ∧
    ∃ t, exec (.set (.register 1) (.literal 5)) (running 0 []) = .next t := ⟨by decide, _, rfl⟩
theorem witness_StackFrame : ∃ t, exec .ret (stacked [3] (running 0 [])) = .next t := ⟨_, rfl⟩
theorem witness_InputOutputFrame : ∃ t, exec (.out (.literal 69)) (running 0 []) = .next t := ⟨_, rfl⟩
theorem witness_StatusRegisterFrame : ∃ t, exec (.push (.invalid 65535)) (running 0 []) = .next t := ⟨_, rfl⟩
theorem witness_MoveAndStackComplete :
    means (stacked [7, 9] (running 0 [])) (.literal 9) 9 ∧ ¬ stackFull (stacked [7, 9] (running 0 [])) ∧
    (stacked [7, 9] (running 0 [])).stack = [7] ++ [9] :=
  ⟨rfl, by simp [stackFull, stacked, running, State.afterReset, Config.source], rfl⟩
theorem witness_ComparisonsComplete :
    means (preset 1 65535 (running 0 [])) (.register 1) 65535 ∧ means (preset 1 65535 (running 0 [])) (.literal 32767) 32767 :=
  ⟨by show (65535 : Word) = _; decide, rfl⟩
theorem witness_JumpsComplete :
    means (running 0 []) (.literal 0) 0 ∧ means (running 0 []) (.literal 32767) 32767 := ⟨rfl, rfl⟩
theorem witness_CallCompletes :
    means (running 0 []) (.literal 50) 50 ∧ ¬ stackFull (depth 1 (running 0 [])) :=
  ⟨rfl, by simp [stackFull, depth, running, State.afterReset, Config.source]⟩
theorem witness_RetCompletes :
    runsAt 18 (running 0 [18]) (running 0 [18]) ∧ (running 0 [18]).stack = [] ∧
    (stacked [12] (running 0 [18])).stack = [] ++ [12] :=
  ⟨runsAt_running 0 18 [] (by decide) (by decide), rfl, rfl⟩
theorem witness_HaltAndNoopComplete :
    runsAt 0 (running 5 [0]) (running 5 [0]) ∧ runsAt 21 (running 5 [21]) (running 5 [21]) ∧
    (running 32766 [21]).pc.toNat < 32767 ∧ (running 32767 [21]).pc.toNat = 32767 :=
  ⟨runsAt_running 5 0 [] (by decide) (by decide), runsAt_running 5 21 [] (by decide) (by decide), by decide, by decide⟩
theorem witness_ArithmeticCompletes :
    means (running 0 []) (.literal 7) 7 ∧ means (running 0 []) (.literal 3) 3 ∧ (3 : Word) ≠ 0 := ⟨rfl, rfl, by decide⟩
theorem witness_MemoryAccessCompletes :
    means (running 0 []) (.literal 32767) 32767 ∧ means (running 0 []) (.literal 1) 1 ∧ (32767 : Word).toNat ≤ 32767 :=
  ⟨rfl, rfl, by decide⟩
theorem witness_CharacterIoCompletes :
    means (running 0 []) (.literal 10) 10 ∧ { running 0 [] with inBuf := [10] }.inBuf = (10 : Word) :: [] := ⟨rfl, rfl⟩
theorem witness_SetRule : runsAt 1 (running 0 [1, 32768]) (running 0 [1, 32768]) :=
  runsAt_running 0 1 [32768] (by decide) (by decide)
theorem witness_PushRule :
    runsAt 2 (running 0 [2, 1]) (running 0 [2, 1]) ∧ ¬ stackFull (running 0 [2, 1]) ∧
    runsAt 2 (depth 1 (stacked [1] (running 0 [2, 1]))) (depth 1 (stacked [1] (running 0 [2, 1]))) ∧
    stackFull (depth 1 (stacked [1] (running 0 [2, 1]))) :=
  ⟨runsAt_running 0 2 [1] (by decide) (by decide),
    by simp [stackFull, running, State.afterReset, Config.source], ⟨rfl, by decide, by decide, [], rfl, rfl⟩, rfl⟩
theorem witness_PopRule :
    runsAt 3 (running 0 [3, 32768]) (running 0 [3, 32768]) ∧ (running 0 [3, 32768]).stack = [] ∧
    runsAt 3 (stacked [7] (running 0 [3, 32768])) (stacked [7] (running 0 [3, 32768])) ∧
    (stacked [7] (running 0 [3, 32768])).stack = [] ++ [7] :=
  ⟨runsAt_running 0 3 [32768] (by decide) (by decide), rfl, ⟨rfl, by decide, by decide, [], rfl, rfl⟩, rfl⟩
theorem witness_EqRule : runsAt 4 (running 0 [4, 32768]) (running 0 [4, 32768]) :=
  runsAt_running 0 4 [32768] (by decide) (by decide)
theorem witness_GtRule : runsAt 5 (running 0 [5, 32768]) (running 0 [5, 32768]) :=
  runsAt_running 0 5 [32768] (by decide) (by decide)
theorem witness_JmpRule : runsAt 6 (running 0 [6, 32768]) (running 0 [6, 32768]) :=
  runsAt_running 0 6 [32768] (by decide) (by decide)
theorem witness_JtAndJfRules :
    runsAt 7 (running 0 [7, 32768]) (running 0 [7, 32768]) ∧
    runsAt 8 (running 0 [8, 32768]) (running 0 [8, 32768]) :=
  ⟨runsAt_running 0 7 [32768] (by decide) (by decide), runsAt_running 0 8 [32768] (by decide) (by decide)⟩
theorem witness_AddRule : runsAt 9 (running 0 [9, 32768]) (running 0 [9, 32768]) :=
  runsAt_running 0 9 [32768] (by decide) (by decide)
theorem witness_MultRule : runsAt 10 (running 0 [10, 32768]) (running 0 [10, 32768]) :=
  runsAt_running 0 10 [32768] (by decide) (by decide)
theorem witness_ModRule : runsAt 11 (running 0 [11, 32768]) (running 0 [11, 32768]) :=
  runsAt_running 0 11 [32768] (by decide) (by decide)
theorem witness_AndAndOrRules :
    runsAt 12 (running 0 [12, 32768]) (running 0 [12, 32768]) ∧
    runsAt 13 (running 0 [13, 32768]) (running 0 [13, 32768]) :=
  ⟨runsAt_running 0 12 [32768] (by decide) (by decide), runsAt_running 0 13 [32768] (by decide) (by decide)⟩
theorem witness_NotRule : runsAt 14 (running 0 [14, 32768]) (running 0 [14, 32768]) :=
  runsAt_running 0 14 [32768] (by decide) (by decide)
theorem witness_RmemRule : runsAt 15 (running 0 [15, 32768]) (running 0 [15, 32768]) :=
  runsAt_running 0 15 [32768] (by decide) (by decide)
theorem witness_WmemRule : runsAt 16 (running 0 [16, 32768]) (running 0 [16, 32768]) :=
  runsAt_running 0 16 [32768] (by decide) (by decide)
theorem witness_CallRule :
    runsAt 17 (running 0 [17, 1]) (running 0 [17, 1]) ∧ ¬ stackFull (running 0 [17, 1]) ∧
    runsAt 17 (depth 1 (stacked [1] (running 0 [17, 1]))) (depth 1 (stacked [1] (running 0 [17, 1]))) ∧
    stackFull (depth 1 (stacked [1] (running 0 [17, 1]))) :=
  ⟨runsAt_running 0 17 [1] (by decide) (by decide),
    by simp [stackFull, running, State.afterReset, Config.source], ⟨rfl, by decide, by decide, [], rfl, rfl⟩, rfl⟩
theorem witness_OutRule : runsAt 19 (running 0 [19, 32768]) (running 0 [19, 32768]) :=
  runsAt_running 0 19 [32768] (by decide) (by decide)
theorem witness_InRule :
    runsAt 20 (running 0 [20, 32768]) (running 0 [20, 32768]) ∧ (running 0 [20, 32768]).inBuf = [] ∧
    runsAt 20 { running 0 [20, 32768] with inBuf := [104] } { running 0 [20, 32768] with inBuf := [104] } :=
  ⟨runsAt_running 0 20 [32768] (by decide) (by decide), rfl, ⟨rfl, by decide, by decide, [], rfl, rfl⟩⟩
theorem witness_StackRoundTrip :
    (running 0 []).cfg.stackDepth = .unbounded ∧ (running 0 []).pc.toNat + 8 ≤ 32767 ∧
    means (running 0 []) (.literal 11) 11 ∧ means (running 0 []) (.literal 22) 22 ∧ (0 : Reg) ≠ 1 :=
  ⟨rfl, by decide, rfl, rfl, by decide⟩
theorem witness_CallThenRetReturns :
    means (running 10 []) (.literal 50) 50 ∧ ¬ stackFull (running 10 []) ∧ (running 10 []).pc.toNat + 2 ≤ 32767 ∧
    (50 : Word).toNat ≤ 32767 :=
  ⟨rfl, by simp [stackFull, running, State.afterReset, Config.source], by decide, by decide⟩
/-- The source's self-modifying program (L1-9): wmem 3, 0 at 0 stores a halt over the next instruction. -/
theorem witness_StoreSeenByNextFetch :
    means (running 0 [16, 3, 0, 19]) (.literal 3) 3 ∧ means (running 0 [16, 3, 0, 19]) (.literal 0) 0 ∧
    (3 : Word).toNat ≤ 32767 ∧ (running 0 [16, 3, 0, 19]).pc.toNat + 3 ≤ 32767 ∧
    (∃ t, exec (.wmem (.literal 3) (.literal 0)) (running 0 [16, 3, 0, 19]) = .next t) ∧
    (running 0 [16, 3, 0, 19]).pc.toNat + 3 + 0 = (3 : Word).toNat :=
  ⟨rfl, rfl, by decide, by decide, ⟨_, rfl⟩, by decide⟩
theorem witness_OutputOnlyGrows :
    (∃ t, step (running 0 [19, 65]) = .next t) ∧ ∀ rest, (running 0 [19, 65]).turn ≠ .host .reset rest :=
  ⟨⟨_, rfl⟩, fun _ => Turn.noConfusion⟩
theorem witness_ResetMove : { running 0 [] with script := [.reset] }.script = HostMove.reset :: [] := rfl
theorem witness_LoadMove :
    { State.reset with script := [.load [5, 6]] }.script = HostMove.load [5, 6] :: [] ∧ State.reset.rs = .idle ∧
    ([5, 6] : List Word).length ≤ 32768 ∧ (running 0 []).rs ≠ .idle ∧
    32768 < (List.replicate 32769 (0 : Word)).length := ⟨rfl, rfl, by decide, by decide, by rw [List.length_replicate]; exact Nat.lt_succ_self 32768⟩
theorem witness_ControlMoves :
    { State.reset with script := [.start] }.script = HostMove.start :: [] ∧ State.reset.rs = .idle ∧
    { State.reset with script := [.preload 7 65535] }.script = HostMove.preload 7 65535 :: [] ∧
    { running 0 [] with script := [.abort] }.script = HostMove.abort :: [] ∧
    (running 0 []).rs = .running ∧ ¬ (State.reset.rs = .running ∨ State.reset.rs = .waitInput) :=
  ⟨rfl, rfl, rfl, rfl, rfl, by decide⟩
/-- A sound state in IDLE with a start to come. -/
theorem witness_ControlMoves_sound :
    State.Inv { State.afterReset Config.source (Memory.ofImage [21]) with script := [.start] } :=
  { memCanonical := by decide
    paramsLegal := ⟨trivial, trivial⟩
    stackBounded := rfl
    inBufBounded := rfl
    pcRange := by decide
    idleAsReset := by decide
    waitsAtIn := by decide
    haltCauseIff := by decide
    faultCauseIff := by decide
    faultRegsZero := by decide
    faultAtPc := by decide }
theorem witness_WaitingInTakesDeliveredLine :
    State.Inv { running 0 [20, 32768] with rs := .waitInput, script := [.deliver [104, 105]] } ∧
    depthAdmits (running 0 [20, 32768]).cfg.inbufDepth 3 = true ∧
    32768 ≤ (operandWord (running 0 [20, 32768]) 1).toNat ∧ (operandWord (running 0 [20, 32768]) 1).toNat ≤ 32775 :=
  ⟨{ memCanonical := by decide
     paramsLegal := ⟨trivial, trivial⟩
     stackBounded := rfl
     inBufBounded := rfl
     pcRange := by decide
     idleAsReset := by decide
     waitsAtIn := by decide
     haltCauseIff := by decide
     faultCauseIff := by decide
     faultRegsZero := by decide
     faultAtPc := by decide }, rfl, by decide, by decide⟩
theorem witness_WaitingInTakesDeliveredLine_pending :
    State.Inv { running 0 [20, 32768] with script := [.deliver [104]] } ∧ (running 0 [20, 32768]).rs ≠ .waitInput :=
  ⟨{ memCanonical := by decide
     paramsLegal := ⟨trivial, trivial⟩
     stackBounded := rfl
     inBufBounded := rfl
     pcRange := by decide
     idleAsReset := by decide
     waitsAtIn := by decide
     haltCauseIff := by decide
     faultCauseIff := by decide
     faultRegsZero := by decide
     faultAtPc := by decide }, by decide⟩
theorem witness_StatusPortValues :
    6 < 7 ∧ statusRead 1 (State.haltRun .pcRange (running 0 [])) = some 3 ∧
    statusRead 6 (State.raise .invalidOperand 4 32776 3 (running 0 [])) = some 3 := ⟨by decide, rfl, rfl⟩

end Sys2Proof.Tests
end

