-- ==== Sys2Proof/Proofs/StateFrames.lean ====
section
/-! The frames of the registers, the stack and the status registers over all instructions (10_state.md R32, R42, R53).
Each is one case split over `Effect`, the list of all ways an instruction can end. -/

namespace Sys2Proof.Proofs

open Sys2Proof.Machine Sys2Proof.Claim

/-! ### Registers -/

/-- An instruction leaves the register file, or writes one value to its destination register. -/
theorem effect_regs {i : Instr} {s t : State} (h : Effect i s t) :
    t.regs = s.regs ∨ ∃ r v, destination i = some r ∧ t.regs = s.regs.set r v := by
  cases h with
  | fault | halt | push | jmp | jt | jf | wmem | call | retHalt | ret | out | wait | noop => exact .inl (by simp)
  | set _ r | pop _ r | eq _ r | gt _ r | add _ r | mult _ r | mod _ r | and _ r | or _ r | not _ r | rmem _ r
  | inp _ r => exact .inr ⟨r, _, rfl, State.advance_regs _ _⟩

/-- Settles O21: the register file is kept or written at the destination register only. -/
theorem registerFrame : Obligations.RegisterFrame := by
  intro i s t h q hq
  rcases effect_regs (exec_effect i s t h) with hregs | ⟨r, v, hr, hregs⟩
  · rw [hregs]
  · have hne : r ≠ q := fun e => hq (e ▸ hr)
    rw [hregs]
    exact State.getReg_setReg_other s r q v hne

/-! ### The stack -/

/-- An operand that resolves to a value means that value. -/
theorem means_of_resolve {s : State} {o : Operand} {v : Word} (h : resolve s o = some v) : means s o v := by
  cases o with
  | literal n =>
    cases h
    exact BitVec.toNat_setWidth_of_le (by decide)
  | register r =>
    cases h
    rfl
  | invalid w => cases h

/-- Settles O22: of all the effects only those of push, call, pop and ret touch the stack. -/
theorem stackFrame : Obligations.StackFrame := by
  intro i s t h
  cases exec_effect i s t h with
  | push _ a v ha => exact .inr (.inl ⟨a, v, rfl, means_of_resolve ha, by simp⟩)
  | call _ a => exact .inr (.inr (.inl ⟨a, rfl, by simp⟩))
  | pop _ r below v hs => exact .inr (.inr (.inr ⟨.inl ⟨_, rfl⟩, v, by simpa using hs⟩))
  | ret _ below v hs => exact .inr (.inr (.inr ⟨.inr rfl, v, by simpa using hs⟩))
  | fault | halt | set | eq | gt | jmp | jt | jf | add | mult | mod | and | or | not | rmem | wmem | retHalt | out
  | wait | inp | noop => exact .inl (by simp)

/-! ### HALT_CAUSE and the fault registers -/

/-- The range check after a pc update is the only way it writes HALT_CAUSE (R141). -/
theorem setPc_haltCause (s : State) (target : Word) :
    (s.setPc target).haltCause = s.haltCause ∨
    ((s.setPc target).rs = .halted ∧ (s.setPc target).haltCause = .pcRange) := by
  rcases s.setPc_cases target with ⟨_, e⟩ | ⟨_, e⟩ <;> rw [e]
  · exact .inl rfl
  · exact .inr ⟨rfl, rfl⟩

/-- HALT_CAUSE is kept, or the run has halted: by the range check, or with the pc where it was. -/
theorem effect_haltCause {i : Instr} {s t : State} (h : Effect i s t) :
    t.haltCause = s.haltCause ∨ (t.rs = .halted ∧ (t.haltCause = .pcRange ∨ t.pc = s.pc)) := by
  cases h with
  | fault | wait => exact .inl rfl
  | halt | retHalt => exact .inr ⟨rfl, .inr rfl⟩
  | set | push | pop | eq | gt | jmp | jt | jf | add | mult | mod | and | or | not | rmem | wmem | call | ret | out
  | inp | noop => exact (setPc_haltCause _ _).imp_right fun ⟨hrs, hc⟩ => ⟨hrs, .inl hc⟩

/-- The fault registers are kept, or the run has failed and they name the instruction that stands at the pc (R138). -/
theorem effect_faultRegs {i : Instr} {s t : State} (h : Effect i s t) :
    (t.faultCause = s.faultCause ∧ t.faultPc = s.faultPc ∧ t.faultOpcode = s.faultOpcode ∧
      t.faultInfo = s.faultInfo ∧ t.faultOpIdx = s.faultOpIdx) ∨
    (t.rs = .failed ∧ t.faultPc = s.pc ∧ t.faultOpcode = i.opcode ∧ t.pc = s.pc) := by
  cases h with
  | fault => exact .inr ⟨rfl, rfl, rfl, rfl⟩
  | halt | set | push | pop | eq | gt | jmp | jt | jf | add | mult | mod | and | or | not | rmem | wmem | call | retHalt
  | ret | out | wait | inp | noop => exact .inl (by simp)

/-- Settles O24, from what the effects do to HALT_CAUSE and to the fault registers. -/
theorem statusRegisterFrame : Obligations.StatusRegisterFrame := by
  intro i s t h
  have he := exec_effect i s t h
  have hhalt := effect_haltCause he
  refine ⟨hhalt.imp_right And.left, effect_faultRegs he, fun hchanged hnotRange => ?_⟩
  obtain ⟨_, hrange | hpc⟩ := hhalt.resolve_left hchanged
  · exact absurd hrange hnotRange
  · exact hpc

end Sys2Proof.Proofs
end

