-- ==== Sys2Proof/Proofs/ResetAndStatus.lean ====
section
/-! Reset (10_state.md R57, 70_reset_and_hazards.md R300, R301) and the status port (R44 to R52, R309). -/

namespace Sys2Proof.Proofs

open Sys2Proof.Machine Sys2Proof.Claim

/-! ### Reset -/

/-- A capacity of any number of entries admits the empty sequence. -/
theorem depthAdmits_zero (d : Depth) : depthAdmits d 0 = true := by
  cases d with
  | unbounded => rfl
  | bounded entries => exact decide_eq_true (Nat.zero_le entries)

/-- The invariant holds after reset, with legal parameters and canonical memory. -/
theorem afterReset_inv (cfg : Config) (mem : Memory) (hstack : depthLegal cfg.stackDepth)
    (hinbuf : depthLegal cfg.inbufDepth) (hmem : mem.wf = true) : (State.afterReset cfg mem).Inv where
  memCanonical := hmem
  paramsLegal := ⟨hstack, hinbuf⟩
  stackBounded := depthAdmits_zero cfg.stackDepth
  inBufBounded := depthAdmits_zero cfg.inbufDepth
  pcRange := ⟨fun h => absurd h (Nat.not_lt_zero _), nofun⟩
  idleAsReset _ := ⟨rfl, rfl, rfl⟩
  waitsAtIn := nofun
  haltCauseIff := ⟨fun h => absurd rfl h, nofun⟩
  faultCauseIff := ⟨fun h => absurd rfl h, nofun⟩
  faultRegsZero _ := ⟨rfl, rfl, rfl, rfl⟩
  faultAtPc := nofun

/-- Settles O16: the reset state is one of the states after reset, with the source's parameters. -/
theorem resetHasInv : Obligations.ResetHasInv :=
  ⟨afterReset_inv Config.source Memory.powerOn trivial trivial Memory.powerOn_wf, afterReset_inv⟩

/-- A reset that stands first among the host's moves is taken in any run state. -/
theorem step_of_reset {s : State} {rest : List HostMove} (h : s.script = .reset :: rest) :
    step s = .next { State.afterReset s.cfg s.mem with script := rest } := by
  have hturn : s.turn = .host .reset rest := by rw [State.turn, h]
  rw [step, hturn]
  rfl

/-- Settles O55: the fields of the state after reset, read off one by one. -/
theorem resetMove : Obligations.ResetMove := by
  intro s rest h
  have hregs : ∀ r : Reg, (State.afterReset s.cfg s.mem).regs[r] = 0 := fun r => Vector.getElem_replicate r.isLt
  exact ⟨_, step_of_reset h, rfl, hregs, rfl, rfl, rfl, rfl, rfl, rfl, rfl, rfl, rfl, rfl, rfl, rfl, rfl, rfl⟩

/-! ### The status port -/

/-- The status port has no answer past its seven addresses. -/
theorem statusRead_of_gt (s : State) (addr : Nat) (h : 6 < addr) : statusRead addr s = none := by
  obtain ⟨n, rfl⟩ := Nat.exists_eq_add_of_le' h
  rfl

/-- Settles O59: one code for each run state, halt cause and fault cause; the fault registers are read as they are. -/
theorem statusPortValues : Obligations.StatusPortValues := by
  intro s addr
  refine ⟨statusRead_of_gt s addr, ?runState, ?haltCause, ?faultCause, rfl, rfl, rfl, ?opIdx⟩
  case runState =>
    change some (s.rs.code.setWidth 16) = _
    cases s.rs <;> rfl
  case haltCause =>
    change some (s.haltCause.code.setWidth 16) = _
    cases s.haltCause <;> rfl
  case faultCause =>
    change some (s.faultCause.code.setWidth 16) = _
    cases s.faultCause <;> rfl
  case opIdx => exact ⟨s.faultOpIdx.setWidth 16, rfl, BitVec.toNat_setWidth_of_le (by decide)⟩

end Sys2Proof.Proofs
end

