-- ==== Sys2Proof/Proofs/MemoryFrames.lean ====
section
/-! Memory as the instructions leave it (20_memory.md R71, R73), and the store that the next fetch sees (R86). -/

namespace Sys2Proof.Proofs

open Sys2Proof.Machine Sys2Proof.Claim

/-! ### The frame of memory -/

/-- A wmem to a word of memory stores its second operand there and goes on (R221). -/
theorem exec_wmem_of_le {s : State} {a b : Operand} {addr v : Word} (ha : resolve s a = some addr)
    (hb : resolve s b = some v) (hle : addr.toNat ≤ literalMax) :
    exec (.wmem a b) s = .next (State.advance 3 { s with mem := s.mem.writeWord addr.toNat v }) := by
  change execWmem a b s = _
  rw [execWmem, withVV, withValue_of_some _ _ _ _ _ _ ha, withValue_of_some _ _ _ _ _ _ hb,
    Memory.memWrite_of_le _ _ _ hle]

/-- An instruction leaves memory, or it is a wmem that has stored one word. -/
theorem effect_mem {i : Instr} {s t : State} (h : Effect i s t) :
    t.mem = s.mem ∨
    ∃ a b addr v, i = .wmem a b ∧ resolve s a = some addr ∧ resolve s b = some v ∧ addr.toNat ≤ literalMax ∧
      t.mem = s.mem.writeWord addr.toNat v := by
  cases h with
  | wmem _ a b addr v ha hb hle => exact .inr ⟨a, b, addr, v, rfl, ha, hb, hle, State.advance_mem _ _⟩
  | fault | halt | set | push | pop | eq | gt | jmp | jt | jf | add | mult | mod | and | or | not | rmem | call
  | retHalt | ret | out | wait | inp | noop => exact .inl (by simp)

/-- A byte outside the stored word reads as before. -/
theorem effect_readByte_of_not_stores {i : Instr} {s t : State} {n : Nat} (h : Effect i s t) (hn : ¬ stores i s n) :
    t.mem.readByte n = s.mem.readByte n := by
  rcases effect_mem h with hmem | ⟨a, b, addr, v, rfl, ha, hb, hle, hmem⟩
  · rw [hmem]
  · have hout : ¬ (n = 2 * addr.toNat ∨ n = 2 * addr.toNat + 1) := fun hbyte => hn ⟨addr, v, ha, hb, hle, hbyte⟩
    obtain ⟨hlow, hhigh⟩ := not_or.mp hout
    rw [hmem, Memory.readByte_writeWord, if_neg hhigh, if_neg hlow]

/-- Settles O20: memory is kept, or one word of it is written, whose two bytes are then the halves of the value. -/
theorem memoryFrame : Obligations.MemoryFrame := by
  intro i s t h
  refine ⟨fun n => effect_readByte_of_not_stores (exec_effect i s t h), ?_⟩
  rintro a b addr v rfl ha hb hle
  rw [exec_wmem_of_le ha hb hle] at h
  cases h
  simp [Memory.readByte_writeWord]

/-! ### A store and the next fetch -/

/-- An operand that means a value resolves to that value. -/
theorem resolve_of_means {s : State} {o : Operand} {v : Word} (h : means s o v) : resolve s o = some v := by
  cases o with
  | literal n =>
    have hv : v.toNat = (n.setWidth 16).toNat := h.trans (BitVec.toNat_setWidth_of_le (by decide)).symm
    exact congrArg some (BitVec.eq_of_toNat_eq hv.symm)
  | register r => exact congrArg some (Eq.symm h)
  | invalid w => exact h.elim

/-- What the next step fetches after a sequential pc update that stays in range. -/
theorem fetchWord_advance {s : State} {n : Word} {k addr : Nat} (hpc : s.pc.toNat + n.toNat ≤ literalMax)
    (haddr : s.pc.toNat + n.toNat + k = addr) (hle : addr ≤ literalMax) :
    (s.advance n).fetchWord k = some (s.mem.readWord addr) := by
  have hnext : (s.advance n).pc.toNat = s.pc.toNat + n.toNat := by
    rw [State.advance_pc, BitVec.toNat_add_of_lt (hpc.trans_lt (by decide))]
  rw [State.fetchWord, hnext, haddr, if_pos hle, State.advance_mem]

/-- Settles O53: the next fetch reads memory as the wmem has just written it. -/
theorem storeSeenByNextFetch : Obligations.StoreSeenByNextFetch := by
  intro s t a b addr v k ha hb hle hpc h haddr
  rw [exec_wmem_of_le (resolve_of_means ha) (resolve_of_means hb) hle] at h
  cases h
  rw [fetchWord_advance hpc haddr hle, Memory.readWord_writeWord, if_pos rfl]

end Sys2Proof.Proofs
end

