-- ==== Sys2Proof/Proofs/Encoding.lean ====
section
/-! Encoding and decoding (30_encoding.md R100 to R115): a source of words decodes to exactly the well-formed instruction
whose encoding it spells, and a legal opcode fixes how many words are read. -/

namespace Sys2Proof.Proofs

open Sys2Proof.Machine Sys2Proof.Claim

/-! ### Words that spell an encoding -/

/-- The source `word` holds the words `ws`, from place `k` on. -/
def spelled (word : Nat → Option Word) : Nat → List Word → Prop
  | _, [] => True
  | k, w :: ws => word k = some w ∧ spelled word (k + 1) ws

/-- A list spells words from a place on where what stands there begins with them. -/
theorem spelled_getElem?_iff (l ws : List Word) (k : Nat) : spelled (fun j => l[j]?) k ws ↔ ws <+: l.drop k := by
  induction ws generalizing k with
  | nil => simp [spelled]
  | cons w ws ih =>
    rw [spelled, ih]
    by_cases hk : k < l.length
    · rw [List.drop_eq_getElem_cons hk, List.cons_prefix_cons, List.getElem?_eq_getElem hk, Option.some_inj, eq_comm]
    · simp [List.drop_eq_nil_of_le (Nat.le_of_not_lt hk), hk]

/-- An instruction's encoding has its length (R100). -/
theorem length_encode (i : Instr) : (encode i).length = i.length := by
  simp [encode, Instr.length, Nat.add_comm]

/-! ### One operand word -/

theorem operandAt_of_some {word : Nat → Option Word} {k : Nat} {w : Word} (h : word k = some w) (op : Word)
    (cont : Operand → Except DecodeError Instr) : operandAt word op k cont = cont (Operand.ofWord w) := by
  rw [operandAt, h]

theorem operandAt_of_none {word : Nat → Option Word} {k : Nat} (h : word k = none) (op : Word)
    (cont : Operand → Except DecodeError Instr) : operandAt word op k cont = .error (.noOperand op k) := by
  rw [operandAt, h]

/-- A word written from a well-formed operand is read as that operand. -/
theorem operandAt_toWord {word : Nat → Option Word} {k : Nat} {o : Operand} (h : word k = some o.toWord)
    (ho : o.wellFormed = true) (op : Word) (cont : Operand → Except DecodeError Instr) :
    operandAt word op k cont = cont o := by
  rw [operandAt_of_some h, Operand.ofWord_toWord o ho]

/-- An operand word is read as the well-formed operand it is written from, or it is missing. -/
theorem operandAt_cases (word : Nat → Option Word) (op : Word) (k : Nat) (cont : Operand → Except DecodeError Instr) :
    (∃ o : Operand, o.wellFormed = true ∧ word k = some o.toWord ∧ operandAt word op k cont = cont o) ∨
    (word k = none ∧ operandAt word op k cont = .error (.noOperand op k)) := by
  cases h : word k with
  | some w =>
    exact .inl ⟨.ofWord w, Operand.ofWord_wellFormed w, by rw [Operand.toWord_ofWord], operandAt_of_some h op cont⟩
  | none => exact .inr ⟨rfl, operandAt_of_none h op cont⟩

/-! ### Decoding what is spelled out

Each of the three formats builds its instruction from the operands that are spelled out (R101). -/

theorem formatF1_of_spelled {word : Nat → Option Word} {a : Operand} (h : spelled word 1 [a.toWord])
    (ha : a.wellFormed = true) (op : Word) (mk : Operand → Instr) : formatF1 word op mk = .ok (mk a) := by
  obtain ⟨hwa, _⟩ := h
  rw [formatF1, operandAt_toWord hwa ha]

theorem formatF2_of_spelled {word : Nat → Option Word} {a b : Operand} (h : spelled word 1 [a.toWord, b.toWord])
    (ha : a.wellFormed = true) (hb : b.wellFormed = true) (op : Word) (mk : Operand → Operand → Instr) :
    formatF2 word op mk = .ok (mk a b) := by
  obtain ⟨hwa, hwb, _⟩ := h
  rw [formatF2, operandAt_toWord hwa ha, operandAt_toWord hwb hb]

theorem formatF3_of_spelled {word : Nat → Option Word} {a b c : Operand}
    (h : spelled word 1 [a.toWord, b.toWord, c.toWord]) (ha : a.wellFormed = true) (hb : b.wellFormed = true)
    (hc : c.wellFormed = true) (op : Word) (mk : Operand → Operand → Operand → Instr) :
    formatF3 word op mk = .ok (mk a b c) := by
  obtain ⟨hwa, hwb, hwc, _⟩ := h
  rw [formatF3, operandAt_toWord hwa ha, operandAt_toWord hwb hb, operandAt_toWord hwc hc]

theorem decodeAt_of_some {word : Nat → Option Word} {op : Word} (h : word 0 = some op) :
    decodeAt word = decodeOp word op := by
  rw [decodeAt, h]

theorem wellFormed_iff (i : Instr) : i.wellFormed = true ↔ ∀ o ∈ i.operands, o.wellFormed = true :=
  List.all_eq_true

/-- A source that spells the encoding of a well-formed instruction decodes to that instruction. -/
theorem decodeAt_of_spelled {word : Nat → Option Word} {i : Instr} (hi : i.wellFormed = true)
    (h : spelled word 0 (encode i)) : decodeAt word = .ok i := by
  obtain ⟨hop, hoperands⟩ := h
  rw [wellFormed_iff] at hi
  rw [decodeAt_of_some hop]
  cases i with
  | halt | ret | noop => rfl
  | push a | pop a | jmp a | call a | out a | inp a =>
    exact formatF1_of_spelled hoperands (hi a (by simp [Instr.operands])) _ _
  | set a b | jt a b | jf a b | not a b | rmem a b | wmem a b =>
    exact formatF2_of_spelled hoperands (hi a (by simp [Instr.operands])) (hi b (by simp [Instr.operands])) _ _
  | eq a b c | gt a b c | add a b c | mult a b c | mod a b c | and a b c | or a b c =>
    exact formatF3_of_spelled hoperands (hi a (by simp [Instr.operands])) (hi b (by simp [Instr.operands]))
      (hi c (by simp [Instr.operands])) _ _

/-! ### What the decoder can answer -/

/-- What decoding with the opcode word `op` answers: an instruction that the words spell, or the place of the first
operand word that is missing. -/
inductive Reading (word : Nat → Option Word) (op : Word) : Except DecodeError Instr → Prop where
  | complete (i : Instr) (hop : i.opcode = op) (hi : i.wellFormed = true) (h : spelled word 0 (encode i)) :
      Reading word op (.ok i)
  | missing (k : Nat) (hk : k ≤ operandCount op.toNat) (hread : ∀ j < k, word j ≠ none) (h : word k = none) :
      Reading word op (.error (.noOperand op k))

theorem read_succ {word : Nat → Option Word} {k : Nat} {w : Word} (h : ∀ j < k, word j ≠ none) (hk : word k = some w) :
    ∀ j < k + 1, word j ≠ none :=
  Nat.forall_lt_succ_right.mpr ⟨h, hk ▸ Option.some_ne_none w⟩

theorem read_one {word : Nat → Option Word} {w : Word} (h : word 0 = some w) : ∀ j < 1, word j ≠ none :=
  read_succ (fun _ hj => absurd hj (Nat.not_lt_zero _)) h

/-- Reading one operand word more: the reading ends there, or it goes on with the operand. -/
theorem operandAt_reading {word : Nat → Option Word} {op : Word} {k : Nat}
    {cont : Operand → Except DecodeError Instr} (hk : k ≤ operandCount op.toNat) (hread : ∀ j < k, word j ≠ none)
    (hcont : ∀ o : Operand, o.wellFormed = true → word k = some o.toWord → Reading word op (cont o)) :
    Reading word op (operandAt word op k cont) := by
  rcases operandAt_cases word op k cont with ⟨o, ho, hw, e⟩ | ⟨hw, e⟩ <;> rw [e]
  · exact hcont o ho hw
  · exact .missing k hk hread hw

section
variable {word : Nat → Option Word} {op : Word} (h0 : word 0 = some op)
include h0

/-- The reading is complete at an instruction whose operands the words spell. -/
theorem reading_ok {i : Instr} {os : List Operand} (hop : i.opcode = op) (hos : i.operands = os)
    (hwf : ∀ o ∈ os, o.wellFormed = true) (h : spelled word 1 (os.map Operand.toWord)) : Reading word op (.ok i) := by
  subst hos
  exact .complete i hop ((wellFormed_iff i).mpr hwf) ⟨hop ▸ h0, h⟩

theorem formatF1_reading {mk : Operand → Instr} (hcount : operandCount op.toNat = 1)
    (hop : ∀ a, (mk a).opcode = op) (hos : ∀ a, (mk a).operands = [a]) : Reading word op (formatF1 word op mk) := by
  have r1 := read_one h0
  refine operandAt_reading (by omega) r1 fun a ha hwa => ?_
  exact reading_ok h0 (hop a) (hos a) (by simp [ha]) ⟨hwa, trivial⟩

theorem formatF2_reading {mk : Operand → Operand → Instr} (hcount : operandCount op.toNat = 2)
    (hop : ∀ a b, (mk a b).opcode = op) (hos : ∀ a b, (mk a b).operands = [a, b]) :
    Reading word op (formatF2 word op mk) := by
  have r1 := read_one h0
  refine operandAt_reading (by omega) r1 fun a ha hwa => ?_
  have r2 := read_succ r1 hwa
  refine operandAt_reading (by omega) r2 fun b hb hwb => ?_
  exact reading_ok h0 (hop a b) (hos a b) (by simp [ha, hb]) ⟨hwa, hwb, trivial⟩

theorem formatF3_reading {mk : Operand → Operand → Operand → Instr} (hcount : operandCount op.toNat = 3)
    (hop : ∀ a b c, (mk a b c).opcode = op) (hos : ∀ a b c, (mk a b c).operands = [a, b, c]) :
    Reading word op (formatF3 word op mk) := by
  have r1 := read_one h0
  refine operandAt_reading (by omega) r1 fun a ha hwa => ?_
  have r2 := read_succ r1 hwa
  refine operandAt_reading (by omega) r2 fun b hb hwb => ?_
  have r3 := read_succ r2 hwb
  refine operandAt_reading (by omega) r3 fun c hc hwc => ?_
  exact reading_ok h0 (hop a b c) (hos a b c) (by simp [ha, hb, hc]) ⟨hwa, hwb, hwc, trivial⟩

end

/-- Every opcode up to 21 is that of an instruction: the one it decodes to before words that are all 0. -/
theorem exists_opcode_eq {op : Word} (h : op.toNat ≤ 21) : ∃ i : Instr, i.opcode = op := by
  have hzeros : ∀ n ≤ 21, ∃ i,
      decodeOp (fun _ => some 0) (BitVec.ofNat 16 n) = .ok i ∧ i.opcode = BitVec.ofNat 16 n := by
    intro n hn
    interval_cases n <;> exact ⟨_, rfl, rfl⟩
  obtain ⟨i, _, hi⟩ := hzeros op.toNat h
  exact ⟨i, by simpa using hi⟩

/-- Decoding with a legal opcode answers one of the two readings. -/
theorem decodeAt_reading {word : Nat → Option Word} {op : Word} (h0 : word 0 = some op) (hop : op.toNat ≤ 21) :
    Reading word op (decodeAt word) := by
  obtain ⟨i, rfl⟩ := exists_opcode_eq hop
  rw [decodeAt_of_some h0]
  cases i with
  | halt | ret | noop => exact reading_ok h0 rfl rfl (List.forall_mem_nil _) trivial
  | push | pop | jmp | call | out | inp => exact formatF1_reading h0 rfl (fun _ => rfl) fun _ => rfl
  | set | jt | jf | not | rmem | wmem => exact formatF2_reading h0 rfl (fun _ _ => rfl) fun _ _ => rfl
  | eq | gt | add | mult | mod | and | or => exact formatF3_reading h0 rfl (fun _ _ _ => rfl) fun _ _ _ => rfl

/-- An opcode word above 21 is illegal, whatever follows (R110). -/
theorem decodeAt_illegal {word : Nat → Option Word} {op : Word} (h0 : word 0 = some op) (hop : 21 < op.toNat) :
    decodeAt word = .error (.illegalOpcode op) := by
  rw [decodeAt_of_some h0, decodeOp_illegal word op hop]

/-- A source decodes to exactly the well-formed instruction whose encoding it spells. -/
theorem decodeAt_eq_ok_iff (word : Nat → Option Word) (i : Instr) :
    decodeAt word = .ok i ↔ i.wellFormed = true ∧ spelled word 0 (encode i) := by
  refine ⟨fun h => ?_, fun ⟨hi, hs⟩ => decodeAt_of_spelled hi hs⟩
  cases h0 : word 0 with
  | none => simp [decodeAt, h0] at h
  | some op =>
    by_cases hop : op.toNat ≤ 21
    · have hr := decodeAt_reading h0 hop
      rw [h] at hr
      cases hr with
      | complete _ _ hi hs => exact ⟨hi, hs⟩
    · rw [decodeAt_illegal h0 (Nat.lt_of_not_le hop)] at h
      cases h

/-! ### Lists of words -/

theorem decode_of_ok {ws : List Word} {i : Instr} (h : decodeAt (fun k => ws[k]?) = .ok i) :
    decode ws = .ok (i, ws.drop i.length) := by
  rw [decode, h]

theorem decode_of_error {ws : List Word} {e : DecodeError} (h : decodeAt (fun k => ws[k]?) = .error e) :
    decode ws = .error e := by
  rw [decode, h]

/-- A list decodes to the well-formed instruction whose encoding it begins with, and the rest of it. -/
theorem decode_eq_ok_iff (ws : List Word) (i : Instr) (rest : List Word) :
    decode ws = .ok (i, rest) ↔ i.wellFormed = true ∧ encode i ++ rest = ws := by
  have hread : decodeAt (fun k => ws[k]?) = .ok i ↔ i.wellFormed = true ∧ encode i <+: ws := by
    rw [decodeAt_eq_ok_iff, spelled_getElem?_iff, List.drop_zero]
  constructor
  · intro h
    cases hd : decodeAt (fun k => ws[k]?) with
    | error e => rw [decode_of_error hd] at h; cases h
    | ok i' =>
      rw [decode_of_ok hd] at h
      cases h
      obtain ⟨hi, hpre⟩ := hread.mp hd
      exact ⟨hi, by rw [← length_encode, List.prefix_iff_eq_append.mp hpre]⟩
  · rintro ⟨hi, rfl⟩
    rw [decode_of_ok (hread.mpr ⟨hi, List.prefix_append _ _⟩), List.drop_left' (length_encode i)]

/-- Settles O1: the list decoder's characterization, from right to left. -/
theorem decodeOfEncode : Obligations.DecodeOfEncode :=
  fun i rest hi => (decode_eq_ok_iff _ i rest).mpr ⟨hi, rfl⟩

/-- Settles O2: the list decoder's characterization, from left to right. -/
theorem encodeOfDecode : Obligations.EncodeOfDecode :=
  fun ws i rest => (decode_eq_ok_iff ws i rest).mp

/-- The operand count R112 gives an opcode is that of its instructions (R109). -/
theorem operandCount_opcode (i : Instr) : operandCount i.opcode.toNat = i.operands.length := by
  cases i <;> rfl

theorem decode_illegal {op : Word} (ws : List Word) (hop : 21 < op.toNat) :
    decode (op :: ws) = .error (.illegalOpcode op) :=
  decode_of_error (decodeAt_illegal rfl hop)

/-- A list that begins with a legal opcode: it holds the operand words and decodes to an instruction of that opcode, or
the first word past its end is missing. -/
theorem decode_cons_cases {op : Word} (ws : List Word) (hop : op.toNat ≤ 21) :
    (operandCount op.toNat ≤ ws.length ∧ ∃ i, decode (op :: ws) = .ok (i, ws.drop (operandCount op.toNat)) ∧
      i.opcode = op ∧ i.length = 1 + operandCount op.toNat) ∨
    (ws.length < operandCount op.toNat ∧ decode (op :: ws) = .error (.noOperand op (ws.length + 1))) := by
  have hr : Reading _ op (decodeAt fun k => (op :: ws)[k]?) := decodeAt_reading rfl hop
  generalize hd : (decodeAt fun k => (op :: ws)[k]?) = answer at hr
  cases hr with
  | complete i hi _ hs =>
    have hlen : i.length = 1 + operandCount op.toNat := by rw [← hi, operandCount_opcode, Instr.length]
    have hle := ((spelled_getElem?_iff _ _ 0).mp hs).length_le
    rw [length_encode, hlen, List.drop_zero, List.length_cons] at hle
    refine .inl ⟨by omega, i, ?_, hi, hlen⟩
    rw [decode_of_ok hd, hlen, Nat.add_comm, List.drop_succ_cons]
  | missing k hk hread hnone =>
    have hend : ws.length + 1 ≤ k := by simpa using hnone
    have hfirst : k ≤ ws.length + 1 := by
      by_contra hlt
      exact hread _ (Nat.lt_of_not_le hlt) (by simp)
    obtain rfl := Nat.le_antisymm hfirst hend
    exact .inr ⟨hk, decode_of_error hd⟩

/-- Settles O4: a legal opcode has one of two outcomes, told apart by the number of words after it. -/
theorem lengthFollowsOpcode : Obligations.LengthFollowsOpcode := by
  intro op ws
  refine ⟨decode_illegal ws, fun hop hshort => ?_, fun hop hfull => ?_⟩
  · rcases decode_cons_cases ws hop with ⟨hfull, _⟩ | ⟨_, e⟩
    · omega
    · exact e
  · rcases decode_cons_cases ws hop with ⟨_, h⟩ | ⟨hshort, _⟩
    · exact h
    · omega

/-- Settles O3: the six examples are encodings, and 22 is above the last opcode. -/
theorem exampleWordsDecode : Obligations.ExampleWordsDecode :=
  ⟨decodeOfEncode (.add (.register 0) (.register 1) (.literal 4)) [] rfl, decodeOfEncode (.out (.register 0)) [] rfl,
    decodeOfEncode .halt [] rfl, decodeOfEncode (.set (.register 7) (.literal 32767)) [] rfl,
    decodeOfEncode (.jt (.register 2) (.literal 100)) [] rfl,
    decodeOfEncode (.wmem (.literal 500) (.register 3)) [] rfl, decode_illegal [] (by decide)⟩

end Sys2Proof.Proofs
end

