-- ==== Sys2Proof/Proofs/OperandChecks.lean ====
section
/-! The classes of operand word, the two roles of an operand and the order of the checks (30_encoding.md R103 to R107). -/

namespace Sys2Proof.Proofs

open Sys2Proof.Machine Sys2Proof.Claim

/-! ### The classes of operand word -/

/-- The literal of an operand word up to 32767 keeps all of the word. -/
theorem setWidth_setWidth_of_le {w : Word} (h : w.toNat ≤ literalMax) : (w.setWidth 15).setWidth 16 = w := by
  simpa only [Operand.ofWord_literal w h, Operand.toWord] using Operand.toWord_ofWord w

/-- Settles O5: the three branches of `Operand.ofWord`. -/
theorem operandWordClasses : Obligations.OperandWordClasses := by
  intro w
  refine ⟨fun h => ⟨_, Operand.ofWord_literal w h, ?literal⟩,
    fun h1 h2 => ⟨_, Operand.ofWord_register w h1 h2, ?register⟩, Operand.ofWord_invalid w⟩
  case literal => exact Nat.mod_eq_of_lt (Nat.lt_succ_of_le h)
  case register =>
    have hlt : w.toNat - 32768 < 8 := by omega
    exact Nat.mod_eq_of_lt hlt

/-! ### The check of one operand word -/

/-- Settles O6: what `resolve` answers in each of the three classes. -/
theorem valueOperandResolves : Obligations.ValueOperandResolves := by
  intro s op k w cont
  split
  · next hlit =>
    have hv : resolve s (.literal (w.setWidth 15)) = some w := congrArg some (setWidth_setWidth_of_le hlit)
    rw [Operand.ofWord_literal w hlit, withValue_of_some _ _ _ _ _ _ hv]
  · next hlit =>
    split
    · next hreg =>
      rw [Operand.ofWord_register w (Nat.lt_of_not_le hlit) hreg]
      rfl
    · next hreg =>
      rw [Operand.ofWord_invalid w (Nat.lt_of_not_le hreg)]
      rfl

/-- A word that names no register is no destination. -/
theorem dest_ofWord_eq_none {w : Word} (h : ¬ (32768 ≤ w.toNat ∧ w.toNat ≤ 32775)) : dest (Operand.ofWord w) = none := by
  by_cases hlit : w.toNat ≤ 32767
  · rw [Operand.ofWord_literal w hlit]
    rfl
  · have hinvalid : 32775 < w.toNat := by omega
    rw [Operand.ofWord_invalid w hinvalid]
    rfl

/-- Settles O7: a register word hands its index on, and a word of the two other classes is no destination. -/
theorem destinationOperandNamesRegister : Obligations.DestinationOperandNamesRegister := by
  intro s op k w cont
  split
  · next h =>
    obtain ⟨hlow, hhigh⟩ := h
    rw [Operand.ofWord_register w hlow hhigh]
    rfl
  · next h =>
    rw [withDest_of_none _ _ _ _ _ (dest_ofWord_eq_none h), Operand.toWord_ofWord]
    rfl

/-! ### The order of the checks -/

/-- `answer` is what the checks `cs` of the operands in the places from `n` on make of the step: the first of them that
fails is reported (R107). -/
def reportsFirst (op : Word) (s : State) (n : Nat) (cs : List (Role × Operand)) (answer : Result) : Prop :=
  ∀ (k : Nat) (role : Role) (o : Operand), cs[k]? = some (role, o) → fails role o = true →
    (∀ c ∈ cs.take k, fails c.1 c.2 = false) → answer = .next (failed .invalidOperand op o.toWord (k + n) s)

theorem reportsFirst_nil (op : Word) (s : State) (n : Nat) (answer : Result) : reportsFirst op s n [] answer :=
  nofun

/-- One check before others: it is reported where it fails, and the others are reported where it does not. -/
theorem reportsFirst_cons {op : Word} {s : State} {n : Nat} {role : Role} {o : Operand} {cs : List (Role × Operand)}
    {answer : Result}
    (hfail : fails role o = true → answer = .next (failed .invalidOperand op o.toWord n s))
    (hpass : fails role o = false → reportsFirst op s (n + 1) cs answer) :
    reportsFirst op s n ((role, o) :: cs) answer := by
  intro k role' o' hk hf hbefore
  cases k with
  | zero =>
    cases hk
    rw [Nat.zero_add]
    exact hfail hf
  | succ k =>
    rw [List.take_succ_cons, List.forall_mem_cons] at hbefore
    obtain ⟨ho, hcs⟩ := hbefore
    rw [Nat.add_right_comm, Nat.add_assoc]
    exact hpass ho k role' o' hk hf hcs

/-- The check of a value operand, before others (R105). -/
theorem reportsFirst_withValue {op : Word} {s : State} {n : Nat} {o : Operand} {cs : List (Role × Operand)}
    {cont : Word → Result} (h : ∀ v, reportsFirst op s (n + 1) cs (cont v)) :
    reportsFirst op s n ((.value, o) :: cs) (withValue op (BitVec.ofNat 2 n) o s cont) := by
  cases o with
  | literal | register => exact reportsFirst_cons nofun fun _ => h _
  | invalid => exact reportsFirst_cons (fun _ => rfl) nofun

/-- The check of a destination operand, before others (R106). -/
theorem reportsFirst_withDest {op : Word} {s : State} {n : Nat} {o : Operand} {cs : List (Role × Operand)}
    {cont : Reg → Result} (h : ∀ r, reportsFirst op s (n + 1) cs (cont r)) :
    reportsFirst op s n ((.destination, o) :: cs) (withDest op (BitVec.ofNat 2 n) o s cont) := by
  cases o with
  | register => exact reportsFirst_cons nofun fun _ => h _
  | literal | invalid => exact reportsFirst_cons (fun _ => rfl) nofun

/-- Every instruction checks its operands in their order, each in its role (R104, R107). -/
theorem exec_reportsFirst (i : Instr) (s : State) : reportsFirst i.opcode s 1 (checks i) (exec i s) := by
  cases i with
  | halt | ret | noop => exact reportsFirst_nil _ _ _ _
  | push | jmp | call | out => exact reportsFirst_withValue fun _ => reportsFirst_nil _ _ _ _
  | pop | inp => exact reportsFirst_withDest fun _ => reportsFirst_nil _ _ _ _
  | jt | jf | wmem =>
    exact reportsFirst_withValue fun _ => reportsFirst_withValue fun _ => reportsFirst_nil _ _ _ _
  | set | not | rmem =>
    exact reportsFirst_withDest fun _ => reportsFirst_withValue fun _ => reportsFirst_nil _ _ _ _
  | eq | gt | add | mult | mod | and | or =>
    exact reportsFirst_withDest fun _ => reportsFirst_withValue fun _ => reportsFirst_withValue fun _ =>
      reportsFirst_nil _ _ _ _

/-- Settles O8, the checks being numbered from 1. -/
theorem firstInvalidOperandReported : Obligations.FirstInvalidOperandReported :=
  fun i s => exec_reportsFirst i s

end Sys2Proof.Proofs
end

