-- ==== Sys2Proof/Proofs/IllegalOpcode.lean ====
section
/-! The step at an opcode word that names no instruction (30_encoding.md R110, 40_dispatch.md R133). -/

namespace Sys2Proof.Proofs

open Sys2Proof.Machine Sys2Proof.Claim

/-! ### A step that fetches an opcode word -/

/-- Where a core runs, the step is the CORE's. -/
theorem step_of_runsAt {op : Word} {s s1 : State} (h : runsAt op s s1) : step s = coreStep s1 := by
  obtain ⟨_, _, _, rest, hturn, rfl⟩ := h
  rw [step, hturn]

/-- The opcode word is the first word the step fetches (R133). -/
theorem fetchWord_zero_of_runsAt {op : Word} {s s1 : State} (h : runsAt op s s1) : s1.fetchWord 0 = some op := by
  obtain ⟨_, hpc, hop, _, _, rfl⟩ := h
  rw [← hop]
  exact if_pos hpc

theorem rs_of_runsAt {op : Word} {s s1 : State} (h : runsAt op s s1) : s1.rs = .running := by
  obtain ⟨hrs, _, _, _, _, rfl⟩ := h
  exact hrs

/-- A fetch that fails ends the step of a RUNNING core. -/
theorem coreStep_of_error {s : State} {e : DecodeError} (hrs : s.rs = .running) (he : s.fetch = .error e) :
    coreStep s = fetchFault e s := by
  rw [coreStep, if_pos hrs, he]

/-- Settles O10: the decoder rejects the opcode word before it asks for any other. -/
theorem illegalOpcodeFails : Obligations.IllegalOpcodeFails := by
  intro op s s1 hop h
  rw [step_of_runsAt h, coreStep_of_error (rs_of_runsAt h) (decodeAt_illegal (fetchWord_zero_of_runsAt h) hop)]
  rfl

end Sys2Proof.Proofs
end

