-- ==== Sys2Proof/Proofs/CoreStep.lean ====
section
/-! A step of the CORE (40_dispatch.md R130 to R138): when it is taken, what it fetches, and what it can answer. -/

namespace Sys2Proof.Proofs

open Sys2Proof.Machine Sys2Proof.Claim

/-! ### The CORE's turn -/

theorem step_of_core {s : State} {rest : List HostMove} (h : s.turn = .core rest) :
    step s = coreStep { s with script := rest } := by
  rw [step, h]

theorem coreStep_of_ne_running {s : State} (h : s.rs ≠ .running) : coreStep s = .next s :=
  if_neg h

theorem coreStep_of_ok {s : State} {i : Instr} (hrs : s.rs = .running) (hi : s.fetch = .ok i) :
    coreStep s = exec i s := by
  rw [coreStep, if_pos hrs, hi]

/-- Settles O12: a core that is not RUNNING leaves the state as its turn gives it. -/
theorem onlyRunningCoreSteps : Obligations.OnlyRunningCoreSteps := by
  intro s rest hrs hturn
  rw [step_of_core hturn]
  exact coreStep_of_ne_running hrs

/-! ### The words a step fetches -/

/-- The words from the pc to the end of memory are those the fetch can read, the first four of them. -/
theorem getElem?_wordsAtPc (s : State) {k : Nat} (hk : k ≤ 3) : (wordsAtPc s)[k]? = s.fetchWord k := by
  have hmax : literalMax = 32767 := rfl
  unfold wordsAtPc State.fetchWord
  split
  · next hle => rw [List.getElem?_map, List.getElem?_range (by omega), Option.map_some]
  · next hgt => exact List.getElem?_eq_none (by rw [List.length_map, List.length_range]; omega)

/-- An instruction that the words at the pc decode to is well-formed, and it is the one the step fetches. -/
theorem fetch_of_decode {s : State} {i : Instr} {after : List Word} (h : decode (wordsAtPc s) = .ok (i, after)) :
    i.wellFormed = true ∧ s.fetch = .ok i := by
  obtain ⟨hi, hwords⟩ := (decode_eq_ok_iff _ _ _).mp h
  have hsame : s.fetch = decodeAt fun k => (wordsAtPc s)[k]? :=
    decodeAt_congr _ _ fun k hk => (getElem?_wordsAtPc s hk).symm
  refine ⟨hi, ?_⟩
  rw [hsame, decodeAt_eq_ok_iff, spelled_getElem?_iff, List.drop_zero]
  exact ⟨hi, after, hwords⟩

/-- Settles O9: the step fetches the instruction that the words at the pc decode to. -/
theorem stepRunsDecoded : Obligations.StepRunsDecoded := by
  intro s rest i after hturn hrs hdecode
  obtain ⟨hi, hfetch⟩ := fetch_of_decode (s := { s with script := rest }) hdecode
  rw [step_of_core hturn]
  exact ⟨hi, coreStep_of_ok hrs hfetch⟩

/-- Every place that a list of words is spelled over holds a word. -/
theorem ne_none_of_spelled {word : Nat → Option Word} {ws : List Word} {k j : Nat} (h : spelled word k ws)
    (hk : k ≤ j) (hj : j < k + ws.length) : word j ≠ none := by
  induction ws generalizing k with
  | nil => exact absurd hj (Nat.not_lt.mpr hk)
  | cons w ws ih =>
    obtain ⟨hw, hws⟩ := h
    rw [List.length_cons] at hj
    rcases Nat.eq_or_lt_of_le hk with rfl | hlt
    · exact hw ▸ Option.some_ne_none w
    · exact ih hws hlt (by omega)

/-- With a legal opcode, the first operand word that is missing ends the decoding (R134). -/
theorem decodeAt_missing {word : Nat → Option Word} {op : Word} {k : Nat} (h0 : word 0 = some op)
    (hop : op.toNat ≤ 21) (hk : k ≤ operandCount op.toNat) (hread : ∀ j < k, word j ≠ none) (hnone : word k = none) :
    decodeAt word = .error (.noOperand op k) := by
  have hr := decodeAt_reading h0 hop
  generalize decodeAt word = answer at hr
  cases hr with
  | complete i hi _ hs =>
    have hlen : (encode i).length = 1 + operandCount op.toNat := by
      rw [length_encode, Instr.length, ← operandCount_opcode, hi]
    exact absurd hnone (ne_none_of_spelled hs (Nat.zero_le k) (by omega))
  | missing k' _ hread' hnone' =>
    rcases Nat.lt_trichotomy k k' with hlt | rfl | hgt
    · exact absurd hnone (hread' k hlt)
    · rfl
    · exact absurd hnone' (hread k' hgt)

/-- Settles O11: the operand words before place `k` can be fetched and the one at place `k` cannot. -/
theorem operandPastMemoryFails : Obligations.OperandPastMemoryFails := by
  intro op s s1 k hop h _ hk hpast hbefore
  have h0 := fetchWord_zero_of_runsAt h
  have hrs := rs_of_runsAt h
  rw [step_of_runsAt h]
  obtain ⟨_, _, _, rest, _, rfl⟩ := h
  have hread : ∀ j < k, State.fetchWord { s with script := rest } j ≠ none := fun j hj =>
    ne_of_eq_of_ne (if_pos (hbefore j hj)) (Option.some_ne_none _)
  have hnone : State.fetchWord { s with script := rest } k = none := if_neg (Nat.not_le.mpr hpast)
  rw [coreStep_of_error hrs (decodeAt_missing h0 hop hk hread hnone)]
  rfl

/-! ### Every instruction answers a next state -/

theorem safeOutcome_withValue {op : Word} {k : BitVec 2} {o : Operand} {s : State} {cont : Word → Result}
    (h : ∀ v, safeOutcome (cont v)) : safeOutcome (withValue op k o s cont) := by
  rcases withValue_cases op k o s cont with ⟨v, _, e⟩ | ⟨_, e⟩ <;> rw [e]
  · exact h v
  · exact ⟨_, rfl⟩

theorem safeOutcome_withDest {op : Word} {k : BitVec 2} {o : Operand} {s : State} {cont : Reg → Result}
    (h : ∀ r, safeOutcome (cont r)) : safeOutcome (withDest op k o s cont) := by
  rcases withDest_cases op k o s cont with ⟨r, _, e⟩ | ⟨_, e⟩ <;> rw [e]
  · exact h r
  · exact ⟨_, rfl⟩

/-- Settles O13: the operand checks answer a next state, and so does each effect and each fault after them. -/
theorem everyInstructionAnswersNext : Obligations.EveryInstructionAnswersNext := by
  intro i s
  cases i with
  | halt | noop => exact ⟨_, rfl⟩
  | jmp | out => exact safeOutcome_withValue fun _ => ⟨_, rfl⟩
  | jt | jf => exact safeOutcome_withValue fun _ => safeOutcome_withValue fun _ => ⟨_, rfl⟩
  | set | not => exact safeOutcome_withDest fun _ => safeOutcome_withValue fun _ => ⟨_, rfl⟩
  | eq | gt | add | mult | and | or =>
    exact safeOutcome_withDest fun _ => safeOutcome_withValue fun _ => safeOutcome_withValue fun _ => ⟨_, rfl⟩
  | mod =>
    refine safeOutcome_withDest fun _ => safeOutcome_withValue fun _ => safeOutcome_withValue fun _ => ?_
    beta_reduce
    split <;> exact ⟨_, rfl⟩
  | push | call =>
    refine safeOutcome_withValue fun _ => ?_
    split <;> exact ⟨_, rfl⟩
  | pop | inp =>
    refine safeOutcome_withDest fun _ => ?_
    split <;> exact ⟨_, rfl⟩
  | rmem =>
    refine safeOutcome_withDest fun _ => safeOutcome_withValue fun _ => ?_
    beta_reduce
    split <;> exact ⟨_, rfl⟩
  | wmem =>
    refine safeOutcome_withValue fun _ => safeOutcome_withValue fun _ => ?_
    beta_reduce
    split <;> exact ⟨_, rfl⟩
  | ret =>
    change ∃ t, execRet s = .next t
    unfold execRet
    split <;> exact ⟨_, rfl⟩

/-! ### What a step of a RUNNING core can answer -/

/-- A fetch at a pc in range gives an instruction whose opcode is the word at the pc, or a fault that records that word
(R133, R134). -/
theorem fetch_cases {s : State} (hpc : s.pc.toNat ≤ literalMax) :
    (∃ i, s.fetch = .ok i ∧ i.opcode = s.mem.readWord s.pc.toNat) ∨
    (∃ e cause info k, s.fetch = .error e ∧ cause ≠ .none ∧
      fetchFault e s = .next (s.raise cause (s.mem.readWord s.pc.toNat) info k)) := by
  have h0 : s.fetchWord 0 = some (s.mem.readWord s.pc.toNat) := if_pos hpc
  by_cases hop : (s.mem.readWord s.pc.toNat).toNat ≤ 21
  · have hr : Reading _ _ s.fetch := decodeAt_reading h0 hop
    cases hf : s.fetch with
    | ok i =>
      rw [hf] at hr
      cases hr with
      | complete _ hi => exact .inl ⟨i, rfl, hi⟩
    | error e =>
      rw [hf] at hr
      cases hr with
      | missing k => exact .inr ⟨_, .outOfBounds, _, _, rfl, by decide, rfl⟩
  · exact .inr ⟨_, .illegalInstruction, _, _, decodeAt_illegal h0 (Nat.lt_of_not_le hop), by decide, rfl⟩

/-- A pc above 32767 has no opcode word to fetch (R143, log entry 7). -/
theorem coreStep_of_pc_gt {s : State} (hrs : s.rs = .running) (hpc : literalMax < s.pc.toNat) :
    coreStep s = .fault .fetchOutOfRange := by
  have h0 : s.fetchWord 0 = none := if_neg (Nat.not_le.mpr hpc)
  have hfetch : s.fetch = .error .noOpcode := by rw [State.fetch, decodeAt, h0]
  exact coreStep_of_error hrs hfetch

/-- A RUNNING core with its pc in range runs the instruction at the pc, or fails with the word there on record. -/
theorem coreStep_cases {s : State} (hrs : s.rs = .running) (hpc : s.pc.toNat ≤ literalMax) :
    (∃ i, i.opcode = s.mem.readWord s.pc.toNat ∧ coreStep s = exec i s) ∨
    (∃ cause info k, cause ≠ .none ∧ coreStep s = .next (s.raise cause (s.mem.readWord s.pc.toNat) info k)) := by
  rcases fetch_cases hpc with ⟨i, hi, hop⟩ | ⟨e, cause, info, k, he, hcause, hfault⟩
  · exact .inl ⟨i, hop, coreStep_of_ok hrs hi⟩
  · exact .inr ⟨cause, info, k, hcause, (coreStep_of_error hrs he).trans hfault⟩

/-- What a RUNNING core's step answers as its next state: the effect of an instruction whose opcode is the word at the
pc, or a fault of the fetch. -/
theorem coreStep_effect {s t : State} (hrs : s.rs = .running) (h : coreStep s = .next t) :
    (∃ i, i.opcode = s.mem.readWord s.pc.toNat ∧ Effect i s t) ∨
    (∃ cause info k, cause ≠ .none ∧ t = s.raise cause (s.mem.readWord s.pc.toNat) info k) := by
  by_cases hpc : s.pc.toNat ≤ literalMax
  · rcases coreStep_cases hrs hpc with ⟨i, hop, e⟩ | ⟨cause, info, k, hcause, e⟩ <;> rw [e] at h
    · exact .inl ⟨i, hop, exec_effect i s t h⟩
    · cases h
      exact .inr ⟨cause, info, k, hcause, rfl⟩
  · rw [coreStep_of_pc_gt hrs (Nat.lt_of_not_le hpc)] at h
    cases h

/-! ### The run state after an instruction -/

theorem setPc_rs (s : State) (target : Word) : (s.setPc target).rs = s.rs ∨ (s.setPc target).rs = .halted := by
  rcases s.setPc_cases target with ⟨_, e⟩ | ⟨_, e⟩ <;> rw [e]
  · exact .inl rfl
  · exact .inr rfl

/-- An instruction fails and commits nothing else, or the run goes on, halts, or waits for input. -/
theorem effect_rs {i : Instr} {s t : State} (h : Effect i s t) :
    (∃ cause info k, cause ≠ .none ∧ t = s.raise cause i.opcode info k) ∨
    t.rs = s.rs ∨ t.rs = .halted ∨ t.rs = .waitInput := by
  cases h with
  | fault _ _ cause info k hcause => exact .inl ⟨cause, info, k, hcause, rfl⟩
  | halt | retHalt => exact .inr (.inr (.inl rfl))
  | wait => exact .inr (.inr (.inr rfl))
  | set | push | pop | eq | gt | jmp | jt | jf | add | mult | mod | and | or | not | rmem | wmem | call | ret | out
  | inp | noop => exact .inr ((setPc_rs _ _).imp_right .inl)

/-- A RUNNING core's step fails and commits nothing else, or the run goes on, halts, or waits for input. -/
theorem coreStep_rs {s t : State} (hrs : s.rs = .running) (h : coreStep s = .next t) :
    (∃ cause info k, cause ≠ .none ∧ t = s.raise cause (s.mem.readWord s.pc.toNat) info k) ∨
    t.rs = .running ∨ t.rs = .halted ∨ t.rs = .waitInput := by
  rcases coreStep_effect hrs h with ⟨i, hop, he⟩ | hfault
  · rw [← hop, ← hrs]
    exact effect_rs he
  · exact .inl hfault

/-- Settles O17: of all a RUNNING core's step can answer, only a fault is in FAILED. -/
theorem faultsArePrecise : Obligations.FaultsArePrecise := by
  intro s t rest hturn hrs hstep hfailed
  rw [step_of_core hturn] at hstep
  rcases coreStep_rs (s := { s with script := rest }) hrs hstep with ⟨cause, info, k, hcause, rfl⟩ | hother
  · exact ⟨cause, info, k.toNat, hcause, by simp [State.raise, failed]⟩
  · simp [hfailed] at hother

end Sys2Proof.Proofs
end

