-- ==== Sys2Proof/Proofs/HostMoves.lean ====
section
/-! The host's moves (70_reset_and_hazards.md R300 to R310), said once: `HostEffect m s t` lists every way in which the
move `m` answers the next state `t`. With what a step of the CORE can answer, it gives the run-state machine (R131), the
terminal run states (R280) and the safety of every step from a sound state (R143). -/

namespace Sys2Proof.Proofs

open Sys2Proof.Machine Sys2Proof.Claim

/-! ### What a move of the host can do -/

/-- Every way in which a move of the host ends: it changes nothing, or it has its own effect in the run state that admits
it. -/
inductive HostEffect : HostMove → State → State → Prop where
  | ignored (m : HostMove) (s : State) : HostEffect m s s
  | reset (s : State) : HostEffect .reset s (hostReset s)
  | load (s : State) (image : List Word) (idle : s.rs = .idle) (fits : image.length ≤ memWords) :
      HostEffect (.load image) s { s with mem := Memory.ofImage image }
  | preload (s : State) (r : Reg) (v : Word) (idle : s.rs = .idle) : HostEffect (.preload r v) s (s.setReg r v)
  | start (s : State) (idle : s.rs = .idle) : HostEffect .start s { s with rs := .running }
  | abort (s : State) (live : s.rs = .running ∨ s.rs = .waitInput) : HostEffect .abort s { s with rs := .aborted }
  | deliver (s : State) (line : List Word) (room : depthAdmits s.cfg.inbufDepth (line.length + 1) = true) :
      HostEffect (.deliver line) s
        { s with inBuf := line ++ [s.cfg.lineTerm], rs := .running, delivered := s.delivered ++ [line] }

/-- A move with an effect in some run states only is ignored in the others. -/
theorem hostEffect_ite {m : HostMove} {s t : State} {admitted : Prop} [Decidable admitted]
    (h : admitted → HostEffect m s t) : HostEffect m s (if admitted then t else s) := by
  split
  · next ha => exact h ha
  · exact .ignored m s

/-- A move of the host answers one of its effects, or it is a line the host must not deliver (log entry 8). -/
theorem hostMove_cases (m : HostMove) (s : State) :
    (∃ t, hostMove m s = .next t ∧ HostEffect m s t) ∨
    (∃ line, m = .deliver line ∧ depthAdmits s.cfg.inbufDepth (line.length + 1) = false ∧
      hostMove m s = .refused .lineTooLong) := by
  cases m with
  | reset => exact .inl ⟨_, rfl, .reset s⟩
  | load image => exact .inl ⟨_, rfl, hostEffect_ite fun ⟨idle, fits⟩ => .load s image idle fits⟩
  | preload r v => exact .inl ⟨_, rfl, hostEffect_ite (.preload s r v)⟩
  | start => exact .inl ⟨_, rfl, hostEffect_ite (.start s)⟩
  | abort => exact .inl ⟨_, rfl, hostEffect_ite (.abort s)⟩
  | deliver line =>
    by_cases room : depthAdmits s.cfg.inbufDepth (line.length + 1) = true
    · exact .inl ⟨_, if_pos room, .deliver s line room⟩
    · exact .inr ⟨line, rfl, eq_false_of_ne_true room, if_neg room⟩
  | yield => exact .inl ⟨_, rfl, .ignored _ s⟩

theorem hostMove_effect {m : HostMove} {s t : State} (h : hostMove m s = .next t) : HostEffect m s t := by
  rcases hostMove_cases m s with ⟨t', e, he⟩ | ⟨_, _, _, e⟩ <;> rw [e] at h <;> cases h
  exact he

/-! ### Whose turn a step is -/

theorem step_of_host {s : State} {m : HostMove} {rest : List HostMove} (h : s.turn = .host m rest) :
    step s = hostMove m { s with script := rest } := by
  rw [step, h]

/-- The host delivers a line only to a waiting core (R234). -/
theorem rs_of_turn_deliver {s : State} {line : List Word} {rest : List HostMove}
    (h : s.turn = .host (.deliver line) rest) : s.rs = .waitInput := by
  unfold State.turn at h
  split at h
  case h_3 =>
    split at h
    · assumption
    · cases h
  all_goals cases h

/-- What a step answers as its next state: the state as the turn leaves it, where the core is not RUNNING; what the
CORE's step answers, where it is; or an effect of the host's move. -/
theorem step_effect {s t : State} (h : step s = .next t) :
    (∃ rest, s.turn = .core rest ∧ s.rs ≠ .running ∧ t = { s with script := rest }) ∨
    (∃ rest, s.turn = .core rest ∧ s.rs = .running ∧ coreStep { s with script := rest } = .next t) ∨
    (∃ m rest, s.turn = .host m rest ∧ HostEffect m { s with script := rest } t) := by
  cases hturn : s.turn with
  | core rest =>
    by_cases hrs : s.rs = .running
    · exact .inr (.inl ⟨rest, rfl, hrs, step_of_core hturn ▸ h⟩)
    · rw [onlyRunningCoreSteps s rest hrs hturn] at h
      cases h
      exact .inl ⟨rest, rfl, hrs, rfl⟩
  | host m rest => exact .inr (.inr ⟨m, rest, rfl, hostMove_effect (step_of_host hturn ▸ h)⟩)

/-! ### The run states -/

/-- Settles O18: the CORE's step and each effect of the host take one of the transitions. -/
theorem runStateTransitions : Obligations.RunStateTransitions := by
  intro s t h
  rcases step_effect h with ⟨_, _, _, rfl⟩ | ⟨rest, hturn, hrs, hcore⟩ | ⟨m, rest, hturn, he⟩
  · exact .inl rfl
  · have hend : t.rs = .running ∨ t.rs = .halted ∨ t.rs = .failed ∨ t.rs = .waitInput := by
      rcases coreStep_rs (s := { s with script := rest }) hrs hcore with ⟨_, _, _, _, rfl⟩ | hrun | hhalt | hwait
      · exact .inr (.inr (.inl rfl))
      · exact .inl hrun
      · exact .inr (.inl hhalt)
      · exact .inr (.inr (.inr hwait))
    rcases hend with hrun | hleft
    · exact .inl (hrun.trans hrs.symm)
    · exact .inr (.inr (.inr (.inl ⟨hrs, hleft, rest, hturn⟩)))
  · cases he with
    | ignored | load | preload => exact .inl rfl
    | reset => exact .inr (.inl ⟨rfl, rest, hturn⟩)
    | start _ idle => exact .inr (.inr (.inl ⟨idle, rfl, rest, hturn⟩))
    | deliver _ line =>
      exact .inr (.inr (.inr (.inr (.inl ⟨rs_of_turn_deliver hturn, rfl, line, rest, hturn⟩))))
    | abort _ live => exact .inr (.inr (.inr (.inr (.inr ⟨live, rfl, rest, hturn⟩))))

/-- A run that has ended is not in any run state that admits a step of the CORE, a start, a line or an abort (R131). -/
theorem rs_of_ended {s : State} (h : s.ended = true) : s.rs ≠ .idle ∧ s.rs ≠ .running ∧ s.rs ≠ .waitInput := by
  cases hrs : s.rs <;> simp [State.ended, hrs] at h ⊢

/-- Settles O19: of all steps, only the host's reset has an effect in a terminal run state. -/
theorem endedRunsStayUnchanged : Obligations.EndedRunsStayUnchanged := by
  intro s t hended hnoReset h
  obtain ⟨hidle, hrunning, hwait⟩ := rs_of_ended hended
  rcases step_effect h with ⟨_, _, _, rfl⟩ | ⟨_, _, hrs, _⟩ | ⟨m, rest, hturn, he⟩
  · rfl
  · exact absurd hrs hrunning
  · cases he with
    | ignored => rfl
    | reset => exact absurd hturn (hnoReset rest)
    | load _ _ idle | preload _ _ _ idle | start _ idle => exact absurd idle hidle
    | deliver => exact absurd (rs_of_turn_deliver hturn) hwait
    | abort _ live => exact live.elim (absurd · hrunning) (absurd · hwait)

/-! ### Safety -/

/-- Only a finite capacity turns a number of entries away, and only one that exceeds it (R12). -/
theorem bounded_of_not_depthAdmits {d : Depth} {n : Nat} (h : depthAdmits d n = false) :
    ∃ entries, d = .bounded entries ∧ entries < n := by
  cases d with
  | unbounded => cases h
  | bounded entries => exact ⟨entries, rfl, Nat.lt_of_not_le (of_decide_eq_false h)⟩

/-- In a sound state, a pc above 32767 has halted the run (R143). -/
theorem pc_le_of_not_halted {s : State} (h : s.Inv) (hrs : s.rs ≠ .halted) : s.pc.toNat ≤ literalMax := by
  by_contra hgt
  have hcause : s.haltCause = .pcRange := h.pcRange.mp (Nat.lt_of_not_le hgt)
  exact hrs (h.haltCauseIff.mp (by simp [hcause]))

/-- The CORE's turn is safe where a RUNNING core's pc is in range. -/
theorem coreStep_safe {s : State} (hpc : s.rs = .running → s.pc.toNat ≤ literalMax) : safeOutcome (coreStep s) := by
  by_cases hrs : s.rs = .running
  · rcases coreStep_cases hrs (hpc hrs) with ⟨i, _, e⟩ | ⟨_, _, _, _, e⟩ <;> rw [e]
    · exact everyInstructionAnswersNext i s
    · exact ⟨_, rfl⟩
  · exact ⟨_, coreStep_of_ne_running hrs⟩

/-- Settles O14: the CORE's turn is safe, and the host's is unless the line is too long. -/
theorem soundStepIsSafe : Obligations.SoundStepIsSafe := by
  intro s h
  cases hturn : s.turn with
  | core rest =>
    have hpc : s.rs = .running → s.pc.toNat ≤ literalMax := fun hrs => pc_le_of_not_halted h (by simp [hrs])
    rw [step_of_core hturn]
    exact .inl (coreStep_safe hpc)
  | host m rest =>
    rw [step_of_host hturn]
    rcases hostMove_cases m { s with script := rest } with ⟨t, e, _⟩ | ⟨line, rfl, hroom, e⟩
    · exact .inl ⟨t, e⟩
    · obtain ⟨n, hdepth, hn⟩ := bounded_of_not_depthAdmits hroom
      exact .inr ⟨e, line, rest, n, rfl, hdepth, hn⟩

end Sys2Proof.Proofs
end

