-- ==== Sys2Proof/Proofs/Invariant.lean ====
section
/-! Every step keeps the invariant (40_dispatch.md R143). What the invariant says of a run that has neither halted nor
failed, apart from the run state itself, is named `CleanInv`: the updates an instruction makes before its pc update keep
it, and every way to end an instruction leads from it back to the invariant. -/

namespace Sys2Proof.Proofs

open Sys2Proof.Machine Sys2Proof.Claim

/-! ### A run without a halt or a fault on record -/

/-- Memory canonical, capacities respected, the pc in range, no halt and no fault on record. -/
structure CleanInv (s : State) : Prop where
  memCanonical : s.mem.wf = true
  paramsLegal : depthLegal s.cfg.stackDepth ∧ depthLegal s.cfg.inbufDepth
  stackBounded : depthAdmits s.cfg.stackDepth s.stack.length = true
  inBufBounded : depthAdmits s.cfg.inbufDepth s.inBuf.length = true
  pcInRange : s.pc.toNat ≤ literalMax
  noHalt : s.haltCause = .none
  noFault : s.faultCause = .none
  faultRegs : s.faultPc = 0 ∧ s.faultOpcode = 0 ∧ s.faultInfo = 0 ∧ s.faultOpIdx = 0

/-- A sound state has no halt and no fault on record but in HALTED and FAILED (R53). -/
theorem cleanInv_of_inv {s : State} (h : s.Inv) (hhalted : s.rs ≠ .halted) (hfailed : s.rs ≠ .failed) : CleanInv s where
  memCanonical := h.memCanonical
  paramsLegal := h.paramsLegal
  stackBounded := h.stackBounded
  inBufBounded := h.inBufBounded
  pcInRange := pc_le_of_not_halted h hhalted
  noHalt := by_contra (hhalted ∘ h.haltCauseIff.mp)
  noFault := by_contra (hfailed ∘ h.faultCauseIff.mp)
  faultRegs := h.faultRegsZero hfailed

/-! ### How a step ends -/

section
variable {s : State} (h : CleanInv s)
include h

/-- A run that goes on or is aborted, or that waits at an `in` with an empty buffer. -/
theorem inv_of_cleanInv (hidle : s.rs ≠ .idle) (hhalted : s.rs ≠ .halted) (hfailed : s.rs ≠ .failed)
    (hwait : s.rs = .waitInput → s.inBuf = [] ∧ s.mem.readWord s.pc.toNat = 20) : s.Inv :=
  { h with
    pcRange := by simp [h.noHalt, h.pcInRange]
    idleAsReset := fun hrs => absurd hrs hidle
    waitsAtIn := hwait
    haltCauseIff := by simp [h.noHalt, hhalted]
    faultCauseIff := by simp [h.noFault, hfailed]
    faultRegsZero := fun _ => h.faultRegs
    faultAtPc := fun hrs => absurd hrs hfailed }

theorem running_inv (hrs : s.rs = .running) : s.Inv :=
  inv_of_cleanInv h (by simp [hrs]) (by simp [hrs]) (by simp [hrs]) (by simp [hrs])

/-- A run halts with the pc in range, or with PC_RANGE on record (R141). -/
theorem halted_inv {pc : Word} {cause : HaltCause} (hcause : cause ≠ .none)
    (hpc : literalMax < pc.toNat ↔ cause = .pcRange) :
    State.Inv { s with pc := pc, rs := .halted, haltCause := cause } :=
  { h with
    pcRange := hpc
    idleAsReset := nofun
    waitsAtIn := nofun
    haltCauseIff := by simp [hcause]
    faultCauseIff := by simp [h.noFault]
    faultRegsZero := fun _ => h.faultRegs
    faultAtPc := nofun }

theorem haltRun_inv {cause : HaltCause} (hcause : cause ≠ .none) (hpc : cause ≠ .pcRange) : (s.haltRun cause).Inv :=
  halted_inv h hcause (iff_of_false (Nat.not_lt.mpr h.pcInRange) hpc)

/-- A run fails with the word at the pc on record (R268). -/
theorem raise_inv {cause : FaultCause} {op info : Word} {k : BitVec 2} (hcause : cause ≠ .none)
    (hop : op = s.mem.readWord s.pc.toNat) : (s.raise cause op info k).Inv :=
  { h with
    pcRange := by simp [h.noHalt, h.pcInRange]
    idleAsReset := nofun
    waitsAtIn := nofun
    haltCauseIff := by simp [h.noHalt]
    faultCauseIff := by simp [hcause]
    faultRegsZero := fun hrs => absurd rfl hrs
    faultAtPc := fun _ => ⟨rfl, hop⟩ }

/-- The pc update of a run: it goes on with the pc in range, or it halts (R139, R141). -/
theorem setPc_inv (hrs : s.rs = .running) (target : Word) : (s.setPc target).Inv := by
  rcases s.setPc_cases target with ⟨hle, e⟩ | ⟨hgt, e⟩ <;> rw [e]
  · exact running_inv { h with pcInRange := hle } hrs
  · exact halted_inv h nofun (iff_of_true hgt rfl)

end

/-! ### Capacities -/

/-- A capacity that is not reached admits one entry more (R40). -/
theorem depthAdmits_succ {d : Depth} {n : Nat} (h : depthAdmits d n = true) (room : d ≠ .bounded n) :
    depthAdmits d (n + 1) = true := by
  cases d with
  | unbounded => rfl
  | bounded entries =>
    have hle : n ≤ entries := of_decide_eq_true h
    have hne : entries ≠ n := fun e => room (congrArg Depth.bounded e)
    exact decide_eq_true (Nat.lt_of_le_of_ne hle hne.symm)

theorem depthAdmits_of_le {d : Depth} {m n : Nat} (h : depthAdmits d n = true) (hle : m ≤ n) :
    depthAdmits d m = true := by
  cases d with
  | unbounded => rfl
  | bounded entries => exact decide_eq_true (hle.trans (of_decide_eq_true h))

section
variable {s : State} (h : CleanInv s)
include h

theorem cleanInv_setReg (r : Reg) (v : Word) : CleanInv (s.setReg r v) :=
  { h with }

theorem cleanInv_push {v : Word} (room : s.cfg.stackDepth ≠ .bounded s.stack.length) :
    CleanInv { s with stack := s.stack ++ [v] } :=
  { h with stackBounded := by simpa using depthAdmits_succ h.stackBounded room }

theorem cleanInv_pop {below : List Word} {v : Word} (hs : s.stack = below ++ [v]) :
    CleanInv { s with stack := below } :=
  { h with stackBounded := depthAdmits_of_le h.stackBounded (by simp [hs]) }

theorem cleanInv_takeInput {ch : Word} {rest : List Word} (hs : s.inBuf = ch :: rest) :
    CleanInv { s with inBuf := rest } :=
  { h with inBufBounded := depthAdmits_of_le h.inBufBounded (by simp [hs]) }

theorem cleanInv_store {addr : Nat} {v : Word} (hle : addr ≤ literalMax) :
    CleanInv { s with mem := s.mem.writeWord addr v } :=
  { h with memCanonical := Memory.writeWord_wf s.mem addr v h.memCanonical hle }

/-! ### The CORE's step -/

/-- An instruction whose opcode is the word at the pc leads a RUNNING core to the invariant. -/
theorem effect_inv {i : Instr} {t : State} (hrs : s.rs = .running) (hop : i.opcode = s.mem.readWord s.pc.toNat)
    (he : Effect i s t) : t.Inv := by
  cases he with
  | fault _ _ _ _ _ hcause => exact raise_inv h hcause hop
  | halt | retHalt => exact haltRun_inv h nofun nofun
  | jmp | jt | jf | noop => exact setPc_inv h hrs _
  | set | eq | gt | add | mult | mod | and | or | not | rmem => exact setPc_inv (cleanInv_setReg h _ _) hrs _
  | out => exact setPc_inv (s := s.emit _) { h with } hrs _
  | push _ _ _ _ room | call _ _ _ _ room => exact setPc_inv (cleanInv_push h room) hrs _
  | pop _ _ _ _ hs => exact setPc_inv (cleanInv_setReg (cleanInv_pop h hs) _ _) hrs _
  | ret _ _ _ hs => exact setPc_inv (cleanInv_pop h hs) hrs _
  | wmem _ _ _ _ _ _ _ hle => exact setPc_inv (cleanInv_store h hle) hrs _
  | wait _ _ hempty =>
    exact inv_of_cleanInv (s := s.waitForInput) { h with } nofun nofun nofun fun _ => ⟨hempty, hop.symm⟩
  | inp _ _ _ _ hs => exact setPc_inv (cleanInv_setReg (cleanInv_takeInput h hs) _ _) hrs _

theorem coreStep_inv {t : State} (hrs : s.rs = .running) (hstep : coreStep s = .next t) : t.Inv := by
  rcases coreStep_effect hrs hstep with ⟨i, hop, he⟩ | ⟨cause, info, k, hcause, rfl⟩
  · exact effect_inv h hrs hop he
  · exact raise_inv h hcause rfl

end

/-! ### The host's moves -/

/-- A move of the host keeps the invariant, where it delivers a line only to a waiting core. -/
theorem hostEffect_inv {m : HostMove} {s t : State} (h : s.Inv)
    (hdeliver : ∀ line, m = .deliver line → s.rs = .waitInput) (he : HostEffect m s t) : t.Inv := by
  cases he with
  | ignored => exact h
  | reset =>
    obtain ⟨hstack, hinbuf⟩ := h.paramsLegal
    exact { afterReset_inv s.cfg s.mem hstack hinbuf h.memCanonical with }
  | load _ image idle fits =>
    exact { h with
      memCanonical := Memory.ofImage_wf image fits
      waitsAtIn := by simp [idle]
      faultAtPc := by simp [idle] }
  | preload => exact { h with }
  | start _ idle =>
    have hclean := cleanInv_of_inv h (by simp [idle]) (by simp [idle])
    exact running_inv { hclean with } rfl
  | abort _ live =>
    have hclean := cleanInv_of_inv h (by rintro e; simp [e] at live) (by rintro e; simp [e] at live)
    exact inv_of_cleanInv (s := { s with rs := .aborted }) { hclean with } nofun nofun nofun nofun
  | deliver _ line room =>
    have hwait := hdeliver line rfl
    have hclean := cleanInv_of_inv h (by simp [hwait]) (by simp [hwait])
    exact running_inv { hclean with inBufBounded := by simpa using room } rfl

/-- The host's moves to come are no part of the invariant. -/
theorem inv_script {s : State} (h : s.Inv) (rest : List HostMove) : State.Inv { s with script := rest } :=
  { h with }

/-- Settles O15: a turn that changes nothing, the CORE's step and the host's move each keep the invariant. -/
theorem stepKeepsInv : Obligations.StepKeepsInv := by
  intro s t h hstep
  rcases step_effect hstep with ⟨rest, _, _, rfl⟩ | ⟨rest, _, hrs, hcore⟩ | ⟨m, rest, hturn, he⟩
  · exact inv_script h rest
  · have hclean := cleanInv_of_inv h (by simp [hrs]) (by simp [hrs])
    exact coreStep_inv (s := { s with script := rest }) { hclean with } hrs hcore
  · have hdeliver : ∀ line, m = .deliver line → s.rs = .waitInput := fun line e => rs_of_turn_deliver (e ▸ hturn)
    exact hostEffect_inv (inv_script h rest) hdeliver he

end Sys2Proof.Proofs
end

