-- ==== Sys2Proof/Proofs/WholeRules.lean ====
section
/-! How a whole rule is read off an instruction's meaning (40_dispatch.md R133 to R141): the model's operand checks, its
pc update and its fetch answer what the words of `Sys2Proof.Claim` say, on the raw operand words at the pc. -/

namespace Sys2Proof.Proofs

open Sys2Proof.Machine Sys2Proof.Claim

/-! ### The pc update and its range check -/

theorem setPc_eq_landed (s : State) (target : Word) : s.setPc target = landed target s := by
  rcases s.setPc_cases target with ⟨hle, e⟩ | ⟨hgt, e⟩ <;> rw [e]
  · exact (if_neg (Nat.not_lt.mpr hle)).symm
  · exact (if_pos hgt).symm

theorem advance_eq_landed (s : State) (n : Word) : s.advance n = landed (s.pc + n) s :=
  setPc_eq_landed s (s.pc + n)

theorem writeResult_eq_next (r : Reg) (v n : Word) (s : State) :
    writeResult r v n s = .next (landed (s.pc + n) (wrote r v s)) :=
  congrArg Host.Outcome.next (advance_eq_landed (s.setReg r v) n)

@[simp] theorem landed_pc (s : State) (target : Word) : (landed target s).pc = target := by
  rw [← setPc_eq_landed, State.setPc_pc]
@[simp] theorem landed_regs (s : State) (target : Word) : (landed target s).regs = s.regs := by
  rw [← setPc_eq_landed, State.setPc_regs]
@[simp] theorem landed_stack (s : State) (target : Word) : (landed target s).stack = s.stack := by
  rw [← setPc_eq_landed, State.setPc_stack]
@[simp] theorem landed_cfg (s : State) (target : Word) : (landed target s).cfg = s.cfg := by
  rw [← setPc_eq_landed, State.setPc_cfg]

/-! ### The operand checks -/

/-- The meaning of an operand depends on the registers only. -/
theorem means_of_regs_eq {s t : State} {o : Operand} {v : Word} (h : means s o v) (hregs : t.regs = s.regs) :
    means t o v := by
  cases o with
  | literal n => exact h
  | register r => exact h.trans (congrArg (·[r]) hregs.symm)
  | invalid w => exact h

/-- A value operand that has a meaning passes its check (R105). -/
theorem withValue_of_means {s : State} {o : Operand} {v : Word} (h : means s o v) (op : Word) (k : BitVec 2)
    (cont : Word → Result) : withValue op k o s cont = cont v :=
  withValue_of_some op k o s cont v (resolve_of_means h)

/-- The check of the value operand that operand word `k` stands for, before a next state (R105). -/
theorem withValue_eq_next {op : Word} {k : Nat} {s : State} {cont : Word → Result} {f : Word → State}
    (h : ∀ v, cont v = .next (f v)) :
    withValue op (BitVec.ofNat 2 k) (.ofWord (operandWord s k)) s cont = .next (valueAt op k s f) := by
  rw [valueOperandResolves, valueAt, apply_ite Host.Outcome.next, apply_ite Host.Outcome.next, h, h]

/-- The check of the destination operand that operand word `k` stands for, before a next state (R106). -/
theorem withDest_eq_next {op : Word} {k : Nat} {s : State} {cont : Reg → Result} {f : Reg → State}
    (h : ∀ r, cont r = .next (f r)) :
    withDest op (BitVec.ofNat 2 k) (.ofWord (operandWord s k)) s cont = .next (destAt op k s f) := by
  rw [destinationOperandNamesRegister, destAt, apply_ite Host.Outcome.next, h]

/-! ### The fetch -/

/-- The operands that the first `n` words after the opcode word stand for. -/
def operandsAt (s : State) (n : Nat) : List Operand :=
  (List.range' 1 n).map fun k => .ofWord (operandWord s k)

theorem operandsAt_wellFormed (s : State) (n : Nat) : ∀ o ∈ operandsAt s n, o.wellFormed = true :=
  List.forall_mem_map.mpr fun _ _ => Operand.ofWord_wellFormed _

theorem map_toWord_operandsAt (s : State) (n : Nat) :
    (operandsAt s n).map Operand.toWord = (List.range' 1 n).map (operandWord s) := by
  rw [operandsAt, List.map_map]
  exact List.map_congr_left fun _ _ => Operand.toWord_ofWord _

/-- The words at the pc that lie in memory are those the fetch reads (R134). -/
theorem spelled_operandWords {s : State} {j n : Nat} (h : s.pc.toNat + (j + n) ≤ 32768) :
    spelled s.fetchWord j ((List.range' j n).map (operandWord s)) := by
  induction n generalizing j with
  | zero => trivial
  | succ n ih =>
    have hword : s.pc.toNat + j ≤ 32767 := by omega
    exact ⟨if_pos hword, ih (by omega)⟩

/-- An instruction whose opcode stands at the pc, with the operands that stand after it, is the one fetched. -/
theorem fetch_eq_ok {s : State} {i : Instr} {n : Nat} (hop : s.fetchWord 0 = some i.opcode)
    (hi : i.operands = operandsAt s n) (hn : s.pc.toNat + n ≤ 32767) : s.fetch = .ok i := by
  have hwf : i.wellFormed = true := (wellFormed_iff i).mpr (hi ▸ operandsAt_wellFormed s n)
  refine (decodeAt_eq_ok_iff _ i).mpr ⟨hwf, hop, ?_⟩
  rw [hi, map_toWord_operandsAt]
  exact spelled_operandWords (by omega)

theorem opcode_toNat_le (i : Instr) : i.opcode.toNat ≤ 21 := by
  cases i <;> exact Nat.le_of_ble_eq_true rfl

theorem pc_of_runsAt {op : Word} {s s1 : State} (h : runsAt op s s1) : s1.pc = s.pc ∧ s1.pc.toNat ≤ 32767 := by
  obtain ⟨_, hpc, _, _, _, rfl⟩ := h
  exact ⟨rfl, hpc⟩

/-- A step at an instruction's opcode word: OutOfBounds at the first operand word past 32767, else what the instruction
answers with the operands that stand there (R133 to R136). -/
theorem step_eq_fetching {i : Instr} {n : Nat} {s s1 t : State} (h : runsAt i.opcode s s1)
    (hi : i.operands = operandsAt s1 n) (ht : exec i s1 = .next t) :
    step s = .next (fetching i.opcode n s1 t) := by
  obtain ⟨hpc, hle⟩ := pc_of_runsAt h
  unfold fetching
  split
  · next hpast =>
    have hcount : operandCount i.opcode.toNat = n := by simp [operandCount_opcode, hi, operandsAt]
    have haddr : s.pc.toNat + (32768 - s1.pc.toNat) = 32768 := by rw [← hpc]; omega
    have hfail := operandPastMemoryFails i.opcode s s1 (32768 - s1.pc.toNat) (opcode_toNat_le i) h
      (by omega) (by omega) (by omega) (by omega)
    rwa [haddr] at hfail
  · next hin =>
    have hfetch := fetch_eq_ok (fetchWord_zero_of_runsAt h) hi (Nat.le_of_not_lt hin)
    rw [step_of_runsAt h, coreStep_of_ok (rs_of_runsAt h) hfetch, ht]

end Sys2Proof.Proofs
end

