-- ==== Sys2Proof/Proofs/RegisterStack.lean ====
section
/-! set, push and pop (41_register_stack.md R160 to R163): one equation for each way past the operand checks, from which
both the completions and the whole rules follow. -/

namespace Sys2Proof.Proofs

open Sys2Proof.Machine Sys2Proof.Claim

/-! ### The stack operations -/

theorem pushStack_of_full {s : State} (h : stackFull s) (v : Word) : s.pushStack v = none := by
  rcases s.pushStack_cases v with ⟨_, e⟩ | ⟨hroom, _⟩
  · exact e
  · exact absurd h hroom

theorem pushStack_of_room {s : State} (h : ¬ stackFull s) (v : Word) :
    s.pushStack v = some { s with stack := s.stack ++ [v] } := by
  rcases s.pushStack_cases v with ⟨hfull, _⟩ | ⟨_, e⟩
  · exact absurd hfull h
  · exact e

theorem popStack_of_nil {s : State} (h : s.stack = []) : s.popStack = none := by
  simp [State.popStack, h]

theorem popStack_of_concat {s : State} {below : List Word} {v : Word} (h : s.stack = below ++ [v]) :
    s.popStack = some (v, { s with stack := below }) := by
  simp [State.popStack, h]

/-! ### What the three instructions answer -/

theorem exec_set (a b : Operand) (s : State) :
    exec (.set a b) s = withDest 1 1 a s fun r => withValue 1 2 b s fun v =>
      .next (landed (s.pc + 3) (wrote r v s)) := by
  simp only [← writeResult_eq_next]
  rfl

theorem exec_push_of_full {s : State} (h : stackFull s) (a : Operand) :
    exec (.push a) s = withValue 2 1 a s fun v => .next (failed .stackOverflow 2 v 0 s) := by
  change execPush a s = _
  simp only [execPush, pushStack_of_full h]
  rfl

theorem exec_push_of_room {s : State} (h : ¬ stackFull s) (a : Operand) :
    exec (.push a) s = withValue 2 1 a s fun v =>
      .next (landed (s.pc + 2) { s with stack := s.stack ++ [v] }) := by
  change execPush a s = _
  simp only [execPush, pushStack_of_room h, advance_eq_landed]
  rfl

theorem exec_pop_of_nil {s : State} (h : s.stack = []) (a : Operand) :
    exec (.pop a) s = withDest 3 1 a s fun _ => .next (failed .stackUnderflow 3 0 0 s) := by
  change execPop a s = _
  simp only [execPop, popStack_of_nil h]
  rfl

theorem exec_pop_of_concat {s : State} {below : List Word} {v : Word} (h : s.stack = below ++ [v]) (a : Operand) :
    exec (.pop a) s = withDest 3 1 a s fun r =>
      .next (landed (s.pc + 2) (wrote r v { s with stack := below })) := by
  change execPop a s = _
  simp only [execPop, popStack_of_concat h, writeResult_eq_next]
  rfl

/-! ### Completion -/

theorem push_completes {s : State} {a : Operand} {v : Word} (h : means s a v) (room : ¬ stackFull s) :
    exec (.push a) s = .next (landed (s.pc + 2) { s with stack := s.stack ++ [v] }) := by
  rw [exec_push_of_room room, withValue_of_means h]

theorem pop_completes {s : State} {below : List Word} {v : Word} (h : s.stack = below ++ [v]) (r : Reg) :
    exec (.pop (.register r)) s = .next (landed (s.pc + 2) (wrote r v { s with stack := below })) :=
  exec_pop_of_concat h (.register r)

/-- Settles O25: where the operands pass their checks, each equation gives the next state. -/
theorem moveAndStackComplete : Obligations.MoveAndStackComplete := by
  intro s r a v
  refine ⟨fun ha => ?_, push_completes, fun below hs => pop_completes hs r⟩
  exact (exec_set (.register r) a s).trans (withValue_of_means ha 1 2 _)

/-! ### The whole rules -/

/-- Settles O34, with the operands that the two words after the opcode stand for. -/
theorem setRule : Obligations.SetRule := by
  intro s s1 h
  refine step_eq_fetching (i := .set (.ofWord (operandWord s1 1)) (.ofWord (operandWord s1 2))) h rfl ?_
  rw [exec_set]
  exact withDest_eq_next fun _ => withValue_eq_next fun _ => rfl

/-- Settles O35: the operand is checked before the stack's room (R269). -/
theorem pushRule : Obligations.PushRule := by
  intro s s1 h
  have hstep : ∀ {t}, exec (.push (.ofWord (operandWord s1 1))) s1 = .next t → step s = .next (fetching 2 1 s1 t) :=
    step_eq_fetching h rfl
  refine ⟨fun hfull => hstep ?_, fun room => hstep ?_⟩
  · rw [exec_push_of_full hfull]
    exact withValue_eq_next fun _ => rfl
  · rw [exec_push_of_room room]
    exact withValue_eq_next fun _ => rfl

/-- Settles O36: the destination is checked before the stack (R162, R269). -/
theorem popRule : Obligations.PopRule := by
  intro s s1 h
  have hstep : ∀ {t}, exec (.pop (.ofWord (operandWord s1 1))) s1 = .next t → step s = .next (fetching 3 1 s1 t) :=
    step_eq_fetching h rfl
  refine ⟨fun hs => hstep ?_, fun below v hs => hstep ?_⟩
  · rw [exec_pop_of_nil hs]
    exact withDest_eq_next fun _ => rfl
  · rw [exec_pop_of_concat hs]
    exact withDest_eq_next fun _ => rfl

/-! ### The round trip -/

theorem not_stackFull_of_unbounded {s : State} (h : s.cfg.stackDepth = .unbounded) : ¬ stackFull s := by
  simp [stackFull, h]

/-- A push on an unbounded stack, said field by field. -/
theorem push_fields {s : State} {a : Operand} {v : Word} (h : means s a v) (hdepth : s.cfg.stackDepth = .unbounded) :
    ∃ t, exec (.push a) s = .next t ∧
      t.pc = s.pc + 2 ∧ t.regs = s.regs ∧ t.stack = s.stack ++ [v] ∧ t.cfg = s.cfg :=
  ⟨_, push_completes h (not_stackFull_of_unbounded hdepth), by simp⟩

/-- A pop from a non-empty stack, said field by field. -/
theorem pop_fields {s : State} {below : List Word} {v : Word} (h : s.stack = below ++ [v]) (r : Reg) :
    ∃ t, exec (.pop (.register r)) s = .next t ∧ t.pc = s.pc + 2 ∧ t.regs = s.regs.set r v ∧ t.stack = below :=
  ⟨_, pop_completes h r, by simp [wrote]⟩

/-- Settles O51: the two pops undo the two pushes, the last one first, and the second pop keeps the first one's
register. -/
theorem stackRoundTrip : Obligations.StackRoundTrip := by
  intro s a b v1 v2 ra rb hdepth hroom ha hb hne
  obtain ⟨s1, h1, hpc1, hregs1, hstack1, hcfg1⟩ := push_fields ha hdepth
  obtain ⟨s2, h2, hpc2, hregs2, hstack2, _⟩ := push_fields (means_of_regs_eq hb hregs1) (by rw [hcfg1, hdepth])
  obtain ⟨s3, h3, hpc3, hregs3, hstack3⟩ := pop_fields hstack2 ra
  obtain ⟨s4, h4, hpc4, hregs4, hstack4⟩ := pop_fields (hstack3.trans hstack1) rb
  refine ⟨s1, s2, s3, s4, h1, h2, h3, h4, ?first, ?second, hstack4, ?pc⟩
  case first =>
    have hval : (ra : Nat) ≠ rb := fun e => hne (Fin.ext e)
    simp [hregs4, hregs3, hval.symm]
  case second => simp [hregs4]
  case pc =>
    rw [hpc4, hpc3, hpc2, hpc1]
    bv_omega

end Sys2Proof.Proofs
end

