-- ==== Sys2Proof/Proofs/Comparison.lean ====
section
/-! eq and gt (42_comparison.md R170, R171): the completion and the whole rule of any instruction of the shape D V V,
and the two comparisons read off from them. -/

namespace Sys2Proof.Proofs

open Sys2Proof.Machine Sys2Proof.Claim

/-! ### Instructions of the shape D V V (R104) -/

/-- A register destination and two value operands that have a meaning pass the checks (R105, R106). -/
theorem withDVV_of_means {s : State} {b c : Operand} {vb vc : Word} (hb : means s b vb) (hc : means s c vc)
    (i : Instr) (r : Reg) (cont : Reg → Word → Word → Result) :
    withDVV i (.register r) b c s cont = cont r vb vc :=
  (withValue_of_means hb i.opcode 2 _).trans (withValue_of_means hc i.opcode 3 _)

/-- The checks of the operands that the three words after the opcode stand for, before a next state (R107). -/
theorem withDVV_eq_next (i : Instr) (s : State) (f : Reg → Word → Word → State) :
    withDVV i (.ofWord (operandWord s 1)) (.ofWord (operandWord s 2)) (.ofWord (operandWord s 3)) s
        (fun r vb vc => .next (f r vb vc)) =
      .next (destAt i.opcode 1 s fun r => valueAt i.opcode 2 s fun vb => valueAt i.opcode 3 s fun vc => f r vb vc) :=
  withDest_eq_next fun _ => withValue_eq_next fun _ => withValue_eq_next fun _ => rfl

/-- A step at the opcode of an instruction that checks three operands and then always has a next state. -/
theorem step_of_withDVV {mk : Operand → Operand → Operand → Instr} {f : State → Reg → Word → Word → State}
    (hexec : ∀ a b c s, exec (mk a b c) s = withDVV (mk a b c) a b c s fun r vb vc => .next (f s r vb vc))
    {op : Word} (hop : ∀ a b c, (mk a b c).opcode = op) (hoperands : ∀ a b c, (mk a b c).operands = [a, b, c])
    {s s1 : State} (h : runsAt op s s1) :
    step s = .next (fetching op 3 s1 (destAt op 1 s1 fun r => valueAt op 2 s1 fun vb => valueAt op 3 s1 fun vc =>
      f s1 r vb vc)) := by
  have hanswer := (hexec _ _ _ s1).trans (withDVV_eq_next _ s1 (f s1))
  have hstep := step_eq_fetching (n := 3) (by rwa [hop]) (hoperands _ _ _) hanswer
  rwa [hop] at hstep

/-! ### What the two comparisons answer -/

/-- Words are equal where their numbers are. -/
theorem truthWord_equalWords (b c : Word) : truthWord (equalWords b c) = if b.toNat = c.toNat then 1 else 0 := by
  simp [truthWord, equalWords, BitVec.toNat_inj]

theorem truthWord_greaterWord (b c : Word) : truthWord (greaterWord b c) = if b.toNat > c.toNat then 1 else 0 := by
  simp [truthWord, greaterWord]

theorem exec_eq (a b c : Operand) (s : State) :
    exec (.eq a b c) s = withDVV (.eq a b c) a b c s fun r vb vc =>
      .next (landed (s.pc + 4) (wrote r (if vb.toNat = vc.toNat then 1 else 0) s)) := by
  simp only [← writeResult_eq_next, ← truthWord_equalWords]
  rfl

theorem exec_gt (a b c : Operand) (s : State) :
    exec (.gt a b c) s = withDVV (.gt a b c) a b c s fun r vb vc =>
      .next (landed (s.pc + 4) (wrote r (if vb.toNat > vc.toNat then 1 else 0) s)) := by
  simp only [← writeResult_eq_next, ← truthWord_greaterWord]
  rfl

/-! ### Completion and the whole rules -/

/-- Settles O26: the operands pass their checks, and each equation gives the next state. -/
theorem comparisonsComplete : Obligations.ComparisonsComplete := by
  intro s r b c vb vc hb hc
  constructor
  · rw [exec_eq, withDVV_of_means hb hc]
  · rw [exec_gt, withDVV_of_means hb hc]

/-- Settles O37, as a step of the shape D V V. -/
theorem eqRule : Obligations.EqRule :=
  fun _ _ => step_of_withDVV exec_eq (fun _ _ _ => rfl) (fun _ _ _ => rfl)

/-- Settles O38, as a step of the shape D V V. -/
theorem gtRule : Obligations.GtRule :=
  fun _ _ => step_of_withDVV exec_gt (fun _ _ _ => rfl) (fun _ _ _ => rfl)

end Sys2Proof.Proofs
end

