-- ==== Sys2Proof/Proofs/ControlTransfer.lean ====
section
/-! halt, jmp, jt, jf, call, ret and noop (43_control_transfer.md R180 to R187): one equation for each way past the
operand checks, from which the completions, the whole rules and the return from a call follow. -/

namespace Sys2Proof.Proofs

open Sys2Proof.Machine Sys2Proof.Claim

/-! ### Landing inside or outside memory (R141) -/

theorem landed_of_le {target : Word} (h : target.toNat ≤ 32767) (s : State) : landed target s = { s with pc := target } :=
  if_neg (Nat.not_lt.mpr h)

theorem landed_of_gt {target : Word} (h : 32767 < target.toNat) (s : State) :
    landed target s = { s with pc := target, rs := .halted, haltCause := .pcRange } :=
  if_pos h

theorem landed_ite (p : Prop) [Decidable p] (t u : Word) (s : State) :
    landed (if p then t else u) s = if p then landed t s else landed u s :=
  apply_ite (landed · s) p t u

/-! ### Instructions without operands -/

/-- A step at the opcode word of an instruction without operands is that instruction: there is no operand word to miss. -/
theorem step_of_operands_nil {i : Instr} {s s1 : State} (h : runsAt i.opcode s s1) (hi : i.operands = []) :
    step s = exec i s1 := by
  have hfetch : s1.fetch = .ok i := fetch_eq_ok (n := 0) (fetchWord_zero_of_runsAt h) hi (pc_of_runsAt h).2
  rw [step_of_runsAt h, coreStep_of_ok (rs_of_runsAt h) hfetch]

/-! ### What the seven instructions answer -/

theorem exec_halt (s : State) : exec .halt s = .next { s with rs := .halted, haltCause := .haltInstr } :=
  rfl

/-- A test of jt and jf picks by whether the condition's number is 0. -/
theorem ite_nonZero {α : Type} (v : Word) (taken other : α) :
    (if nonZero v then taken else other) = if v.toNat = 0 then other else taken := by
  have htest : nonZero v = true ↔ ¬ v.toNat = 0 := by simp [nonZero, BitVec.toNat_eq]
  simp only [htest, ite_not]

theorem exec_jmp (a : Operand) (s : State) :
    exec (.jmp a) s = withValue 6 1 a s fun t => .next (landed t s) := by
  simp only [← setPc_eq_landed]
  rfl

theorem exec_jt (a b : Operand) (s : State) :
    exec (.jt a b) s = withValue 7 1 a s fun cnd => withValue 7 2 b s fun t =>
      .next (landed (if cnd.toNat = 0 then s.pc + 3 else t) s) := by
  change execJt a b s = _
  simp only [execJt, withVV, setPc_eq_landed, advance_eq_landed, ite_nonZero, ← landed_ite]
  rfl

theorem exec_jf (a b : Operand) (s : State) :
    exec (.jf a b) s = withValue 8 1 a s fun cnd => withValue 8 2 b s fun t =>
      .next (landed (if cnd.toNat = 0 then t else s.pc + 3) s) := by
  change execJf a b s = _
  simp only [execJf, withVV, setPc_eq_landed, advance_eq_landed, ite_nonZero, ← landed_ite]
  rfl

theorem exec_call_of_full {s : State} (h : stackFull s) (a : Operand) :
    exec (.call a) s = withValue 17 1 a s fun _ => .next (failed .stackOverflow 17 (s.pc + 2) 0 s) := by
  change execCall a s = _
  simp only [execCall, pushStack_of_full h]
  rfl

theorem exec_call_of_room {s : State} (h : ¬ stackFull s) (a : Operand) :
    exec (.call a) s = withValue 17 1 a s fun t =>
      .next (landed t { s with stack := s.stack ++ [s.pc + 2] }) := by
  change execCall a s = _
  simp only [execCall, pushStack_of_room h, setPc_eq_landed]
  rfl

theorem exec_ret_of_nil {s : State} (h : s.stack = []) :
    exec .ret s = .next { s with rs := .halted, haltCause := .retEmpty } := by
  change execRet s = _
  rw [execRet, popStack_of_nil h]
  rfl

theorem exec_ret_of_concat {s : State} {below : List Word} {t : Word} (h : s.stack = below ++ [t]) :
    exec .ret s = .next (landed t { s with stack := below }) := by
  change execRet s = _
  rw [execRet, popStack_of_concat h, ← setPc_eq_landed]

theorem exec_noop (s : State) : exec .noop s = .next (landed (s.pc + 1) s) :=
  congrArg Host.Outcome.next (advance_eq_landed s 1)

/-! ### Completion -/

/-- Settles O27: the operands pass their checks, and each equation gives the next state. -/
theorem jumpsComplete : Obligations.JumpsComplete := by
  intro s a b v t ha hb
  refine ⟨?jmp, ?jt, ?jf⟩
  case jmp => rw [exec_jmp, withValue_of_means hb]
  case jt => rw [exec_jt, withValue_of_means ha, withValue_of_means hb]
  case jf => rw [exec_jf, withValue_of_means ha, withValue_of_means hb]

/-- Settles O28: the target passes its check and the stack has room for the return address. -/
theorem callCompletes : Obligations.CallCompletes := by
  intro s a t ha room
  rw [exec_call_of_room room, withValue_of_means ha]

/-- Settles O29: an empty stack halts the run, a last entry is the target. -/
theorem retCompletes : Obligations.RetCompletes :=
  ⟨fun _ _ h => step_of_operands_nil (i := .ret) h rfl,
    fun _ => ⟨exec_ret_of_nil, fun _ _ => exec_ret_of_concat⟩⟩

/-- Settles O30: noop lands one word on, which is outside memory from 32767 only. -/
theorem haltAndNoopComplete : Obligations.HaltAndNoopComplete := by
  refine ⟨fun _ _ h => step_of_operands_nil (i := .halt) h rfl,
    fun _ _ h => step_of_operands_nil (i := .noop) h rfl, fun s => ⟨exec_halt s, fun hin => ?inside, fun htop => ?top⟩⟩
  case inside =>
    have hpc : (s.pc + 1).toNat = s.pc.toNat + 1 := by bv_omega
    refine ⟨_, exec_noop s, ?_⟩
    rw [landed_of_le (by omega)]
    exact ⟨hpc, rfl⟩
  case top =>
    have hpc : s.pc + 1 = 32768 := by bv_omega
    rw [exec_noop, hpc, landed_of_gt (by decide)]

/-! ### The whole rules -/

/-- Settles O39, with the operand that the word after the opcode stands for. -/
theorem jmpRule : Obligations.JmpRule := by
  intro s s1 h
  refine step_eq_fetching (i := .jmp (.ofWord (operandWord s1 1))) h rfl ?_
  rw [exec_jmp]
  exact withValue_eq_next fun _ => rfl

/-- Settles O40: both operands are checked before the condition picks the pc. -/
theorem jtAndJfRules : Obligations.JtAndJfRules := by
  intro s s1
  refine ⟨fun h => ?jt, fun h => ?jf⟩
  case jt =>
    refine step_eq_fetching (i := .jt (.ofWord (operandWord s1 1)) (.ofWord (operandWord s1 2))) h rfl ?_
    simp only [exec_jt, landed_ite, ite_not]
    exact withValue_eq_next fun _ => withValue_eq_next fun _ => rfl
  case jf =>
    refine step_eq_fetching (i := .jf (.ofWord (operandWord s1 1)) (.ofWord (operandWord s1 2))) h rfl ?_
    simp only [exec_jf, landed_ite]
    exact withValue_eq_next fun _ => withValue_eq_next fun _ => rfl

/-- Settles O48: the target is checked before the stack's room (R269). -/
theorem callRule : Obligations.CallRule := by
  intro s s1 h
  have hstep : ∀ {t}, exec (.call (.ofWord (operandWord s1 1))) s1 = .next t → step s = .next (fetching 17 1 s1 t) :=
    step_eq_fetching h rfl
  refine ⟨fun hfull => hstep ?_, fun room => hstep ?_⟩
  · rw [exec_call_of_full hfull]
    exact withValue_eq_next fun _ => rfl
  · rw [exec_call_of_room room]
    exact withValue_eq_next fun _ => rfl

/-! ### The return from a call -/

/-- Settles O52: the return address is on top of the stack that the ret finds, and both landings are inside memory. -/
theorem callThenRetReturns : Obligations.CallThenRetReturns := by
  intro s a t ha room hpc ht
  have hback : (s.pc + 2).toNat ≤ 32767 := by bv_omega
  refine ⟨_, callCompletes s a t ha room, landed_pc _ _, ?_⟩
  rw [landed_of_le ht, exec_ret_of_concat rfl, landed_of_le hback]

end Sys2Proof.Proofs
end

