-- ==== Sys2Proof/Proofs/ArithmeticLogic.lean ====
section
/-! add, mult, mod, and, or and not (44_arithmetic_logic.md R200 to R205): one equation for what each instruction
answers past its operand checks, from which both the completions and the whole rules follow. -/

namespace Sys2Proof.Proofs

open Sys2Proof.Machine Sys2Proof.Claim

/-! ### What the six instructions answer -/

/-- An instruction of the shape D V V that writes a function of its two values and advances past its four words. -/
theorem withDVV_writeResult (g : Word → Word → Word) (i : Instr) (a b c : Operand) (s : State) :
    withDVV i a b c s (fun r vb vc => writeResult r (g vb vc) 4 s) =
      withDVV i a b c s fun r vb vc => .next (landed (s.pc + 4) (wrote r (g vb vc) s)) := by
  simp only [writeResult_eq_next]

theorem exec_add (a b c : Operand) (s : State) :
    exec (.add a b c) s = withDVV (.add a b c) a b c s fun r vb vc =>
      .next (landed (s.pc + 4) (wrote r (BitVec.ofNat 16 ((vb.toNat + vc.toNat) % 32768)) s)) :=
  withDVV_writeResult sumWord (.add a b c) a b c s

theorem exec_mult (a b c : Operand) (s : State) :
    exec (.mult a b c) s = withDVV (.mult a b c) a b c s fun r vb vc =>
      .next (landed (s.pc + 4) (wrote r (BitVec.ofNat 16 ((vb.toNat * vc.toNat) % 32768)) s)) :=
  withDVV_writeResult productWord (.mult a b c) a b c s

/-- A zero divisor is told by its number, and its fault is a next state like any other (R202). -/
theorem exec_mod (a b c : Operand) (s : State) :
    exec (.mod a b c) s = withDVV (.mod a b c) a b c s fun r vb vc =>
      .next (if vc.toNat = 0 then failed .divideByZero 11 vb 0 s
        else landed (s.pc + 4) (wrote r (BitVec.ofNat 16 (vb.toNat % vc.toNat)) s)) := by
  have hzero : ∀ vc : Word, vc.toNat = 0 ↔ vc = 0 := fun _ => BitVec.toNat_inj (y := 0)
  simp only [hzero, apply_ite Host.Outcome.next, ← writeResult_eq_next]
  rfl

theorem exec_and (a b c : Operand) (s : State) :
    exec (.and a b c) s = withDVV (.and a b c) a b c s fun r vb vc =>
      .next (landed (s.pc + 4) (wrote r (vb &&& vc) s)) :=
  withDVV_writeResult (· &&& ·) (.and a b c) a b c s

theorem exec_or (a b c : Operand) (s : State) :
    exec (.or a b c) s = withDVV (.or a b c) a b c s fun r vb vc =>
      .next (landed (s.pc + 4) (wrote r (vb ||| vc) s)) :=
  withDVV_writeResult (· ||| ·) (.or a b c) a b c s

theorem exec_not (a b : Operand) (s : State) :
    exec (.not a b) s = withDest 14 1 a s fun r => withValue 14 2 b s fun vb =>
      .next (landed (s.pc + 3) (wrote r (notWord vb) s)) := by
  simp only [← writeResult_eq_next]
  rfl

/-! ### Completion -/

/-- Settles O31: the operands pass their checks, and each equation gives the next state. -/
theorem arithmeticCompletes : Obligations.ArithmeticCompletes := by
  intro s r b c vb vc hb hc
  refine ⟨?add, ?mult, fun hne => ?mod, ?and, ?or, ?not⟩
  case add => rw [exec_add, withDVV_of_means hb hc]
  case mult => rw [exec_mult, withDVV_of_means hb hc]
  case mod =>
    have hdivisor : vc.toNat ≠ 0 := fun e => hne (BitVec.eq_of_toNat_eq e)
    rw [exec_mod, withDVV_of_means hb hc, if_neg hdivisor]
  case and => rw [exec_and, withDVV_of_means hb hc]
  case or => rw [exec_or, withDVV_of_means hb hc]
  case not => exact (exec_not (.register r) b s).trans (withValue_of_means hb 14 2 _)

/-! ### The whole rules of the shape D V V -/

/-- Settles O41, as a step of the shape D V V. -/
theorem addRule : Obligations.AddRule :=
  fun _ _ => step_of_withDVV exec_add (fun _ _ _ => rfl) (fun _ _ _ => rfl)

/-- Settles O42, as a step of the shape D V V. -/
theorem multRule : Obligations.MultRule :=
  fun _ _ => step_of_withDVV exec_mult (fun _ _ _ => rfl) (fun _ _ _ => rfl)

/-- Settles O43, as a step of the shape D V V: the divisor is tested past all three operand checks. -/
theorem modRule : Obligations.ModRule :=
  fun _ _ => step_of_withDVV exec_mod (fun _ _ _ => rfl) (fun _ _ _ => rfl)

/-- Settles O44, as two steps of the shape D V V. -/
theorem andAndOrRules : Obligations.AndAndOrRules :=
  fun _ _ => ⟨step_of_withDVV exec_and (fun _ _ _ => rfl) (fun _ _ _ => rfl),
    step_of_withDVV exec_or (fun _ _ _ => rfl) (fun _ _ _ => rfl)⟩

/-! ### The whole rule of not, and its bits -/

theorem getLsbD_notWord_of_lt (v : Word) {j : Nat} (h : j < 15) : (notWord v).getLsbD j = !v.getLsbD j := by
  have hmask : ∀ j < 15, (0x7FFF : Word).getLsbD j = true := by decide
  rw [notWord, BitVec.getLsbD_xor, hmask j h, Bool.xor_true]

theorem getLsbD_notWord_fifteen (v : Word) : (notWord v).getLsbD 15 = v.getLsbD 15 := by
  have hmask : (0x7FFF : Word).getLsbD 15 = false := by decide
  rw [notWord, BitVec.getLsbD_xor, hmask, Bool.xor_false]

theorem notWord_notWord (v : Word) : notWord (notWord v) = v := by
  rw [notWord, notWord, BitVec.xor_assoc, BitVec.xor_self, BitVec.xor_zero]

/-- Settles O45, with the operands that the two words after the opcode stand for, and the bits of the word written. -/
theorem notRule : Obligations.NotRule := by
  refine ⟨fun s s1 h => ?step, fun v =>
    ⟨fun _ => getLsbD_notWord_of_lt v, getLsbD_notWord_fifteen v, notWord_notWord v⟩⟩
  refine step_eq_fetching (i := .not (.ofWord (operandWord s1 1)) (.ofWord (operandWord s1 2))) h rfl ?_
  rw [exec_not]
  exact withDest_eq_next fun _ => withValue_eq_next fun _ => rfl

end Sys2Proof.Proofs
end

