-- ==== Sys2Proof/Proofs/MemoryAccess.lean ====
section
/-! rmem and wmem (45_memory_access.md R220, R221): one equation for what each instruction answers past its operand
checks, with the address in memory or past it, from which both the completions and the whole rules follow. -/

namespace Sys2Proof.Proofs

open Sys2Proof.Machine Sys2Proof.Claim

/-! ### What the two instructions answer -/

/-- The address is checked past both operand checks, and its fault is a next state like any other (R220). -/
theorem exec_rmem (a b : Operand) (s : State) :
    exec (.rmem a b) s = withDest 15 1 a s fun r => withValue 15 2 b s fun addr =>
      .next (if 32767 < addr.toNat then failed .outOfBounds 15 addr 0 s
        else landed (s.pc + 3) (wrote r (s.mem.readWord addr.toNat) s)) := by
  change (withDest 15 1 a s fun r => withValue 15 2 b s fun addr => _) = _
  congr! 4 with r addr
  by_cases hpast : 32767 < addr.toNat
  · rw [Memory.memRead_of_gt _ _ hpast, if_pos hpast]
    rfl
  · rw [Memory.memRead_of_le _ _ (Nat.le_of_not_lt hpast), if_neg hpast]
    exact writeResult_eq_next r _ 3 s

/-- The address is checked past both operand checks, and nothing is written where it faults (R221). -/
theorem exec_wmem (a b : Operand) (s : State) :
    exec (.wmem a b) s = withValue 16 1 a s fun addr => withValue 16 2 b s fun v =>
      .next (if 32767 < addr.toNat then failed .outOfBounds 16 addr 0 s
        else landed (s.pc + 3) { s with mem := s.mem.writeWord addr.toNat v }) := by
  change (withValue 16 1 a s fun addr => withValue 16 2 b s fun v => _) = _
  congr! 4 with addr v
  by_cases hpast : 32767 < addr.toNat
  · rw [Memory.memWrite_of_gt _ _ _ hpast, if_pos hpast]
    rfl
  · rw [Memory.memWrite_of_le _ _ _ (Nat.le_of_not_lt hpast), if_neg hpast]
    exact congrArg Host.Outcome.next (advance_eq_landed _ 3)

/-! ### Completion -/

/-- Settles O32: the operands pass their checks, the address lies in memory, and the memory of wmem is the one with that
word set. -/
theorem memoryAccessCompletes : Obligations.MemoryAccessCompletes := by
  intro s r a b addr v ha hb hle
  have hin : ¬ 32767 < addr.toNat := Nat.not_lt.mpr hle
  refine ⟨?rmem, s.mem.writeWord addr.toNat v, ?wmem, Memory.writeWord_base _ _ _, ?stored, fun q hq => ?kept⟩
  case rmem =>
    refine (exec_rmem (.register r) a s).trans ((withValue_of_means ha 15 2 _).trans ?_)
    rw [if_neg hin]
  case wmem => rw [exec_wmem, withValue_of_means ha, withValue_of_means hb, if_neg hin]
  case stored => rw [Memory.readWord_writeWord, if_pos rfl]
  case kept => rw [Memory.readWord_writeWord, if_neg hq]

/-! ### The whole rules -/

/-- Settles O46, with the operands that the two words after the opcode stand for. -/
theorem rmemRule : Obligations.RmemRule := by
  intro s s1 h
  refine step_eq_fetching (i := .rmem (.ofWord (operandWord s1 1)) (.ofWord (operandWord s1 2))) h rfl ?_
  rw [exec_rmem]
  exact withDest_eq_next fun _ => withValue_eq_next fun _ => rfl

/-- Settles O47: the step with the operands that the two words after the opcode stand for, and what every word of the
written memory reads as. -/
theorem wmemRule : Obligations.WmemRule := by
  refine ⟨fun s s1 h => ?step, Memory.readWord_writeWord⟩
  refine step_eq_fetching (i := .wmem (.ofWord (operandWord s1 1)) (.ofWord (operandWord s1 2))) h rfl ?_
  rw [exec_wmem]
  exact withValue_eq_next fun _ => withValue_eq_next fun _ => rfl

end Sys2Proof.Proofs
end

