-- ==== Sys2Proof/Proofs/CharacterIo.lean ====
section
/-! out and in (46_io.md R230 to R240): one equation for each way past the operand check, from which the completions and
the whole rules follow; the frames of the output and of the input buffer; and the line that a waiting `in` takes. -/

namespace Sys2Proof.Proofs

open Sys2Proof.Machine Sys2Proof.Claim

/-! ### The frames of the output and of the input buffer -/

/-- Only out emits a code, the value of its operand (R230). -/
theorem effect_emitted {i : Instr} {s t : State} (h : Effect i s t) :
    t.emitted = s.emitted ∨ ∃ a v, i = .out a ∧ resolve s a = some v ∧ t.emitted = s.emitted ++ [v] := by
  cases h with
  | out _ a v ha => exact .inr ⟨a, v, rfl, ha, State.advance_emitted _ _⟩
  | fault | halt | set | push | pop | eq | gt | jmp | jt | jf | add | mult | mod | and | or | not | rmem | wmem | call
  | retHalt | ret | wait | inp | noop => exact .inl (by simp)

/-- Only an in that does not wait takes a code, the first one, to its register (R231, R237). -/
theorem effect_inBuf {i : Instr} {s t : State} (h : Effect i s t) :
    t.inBuf = s.inBuf ∨ ∃ r v, i = .inp (.register r) ∧ s.inBuf = v :: t.inBuf ∧ t.regs[r] = v := by
  cases h with
  | inp _ r ch rest hs => exact .inr ⟨r, ch, rfl, by simp [hs]⟩
  | fault | halt | set | push | pop | eq | gt | jmp | jt | jf | add | mult | mod | and | or | not | rmem | wmem | call
  | retHalt | ret | out | wait | noop => exact .inl (by simp)

/-- No instruction changes the parameters, the lines delivered or the host's moves (log entries 2, 5 and 6). -/
theorem effect_modelFields {i : Instr} {s t : State} (h : Effect i s t) :
    t.cfg = s.cfg ∧ t.delivered = s.delivered ∧ t.script = s.script := by
  cases h <;> simp

/-- Settles O23: the frames of the three groups of fields, each over all the effects. -/
theorem inputOutputFrame : Obligations.InputOutputFrame := by
  intro i s t h
  have he := exec_effect i s t h
  refine ⟨(effect_emitted he).imp_right ?_, effect_inBuf he, effect_modelFields he⟩
  rintro ⟨a, v, hi, ha, hout⟩
  exact ⟨a, v, hi, means_of_resolve ha, hout⟩

/-! ### What the two instructions answer -/

theorem takeInput_of_nil {s : State} (h : s.inBuf = []) : s.takeInput = none := by
  rw [State.takeInput, h]

theorem takeInput_of_cons {s : State} {ch : Word} {rest : List Word} (h : s.inBuf = ch :: rest) :
    s.takeInput = some (ch, { s with inBuf := rest }) := by
  rw [State.takeInput, h]

theorem exec_out (a : Operand) (s : State) :
    exec (.out a) s = withValue 19 1 a s fun v =>
      .next (landed (s.pc + 2) { s with emitted := s.emitted ++ [v] }) := by
  change execOut a s = _
  simp only [execOut, advance_eq_landed]
  rfl

theorem exec_inp_of_nil {s : State} (h : s.inBuf = []) (a : Operand) :
    exec (.inp a) s = withDest 20 1 a s fun _ => .next { s with rs := .waitInput } := by
  change execIn a s = _
  simp only [execIn, takeInput_of_nil h]
  rfl

theorem exec_inp_of_cons {s : State} {ch : Word} {rest : List Word} (h : s.inBuf = ch :: rest) (a : Operand) :
    exec (.inp a) s = withDest 20 1 a s fun r =>
      .next (landed (s.pc + 2) (wrote r ch { s with inBuf := rest })) := by
  change execIn a s = _
  simp only [execIn, takeInput_of_cons h, writeResult_eq_next]
  rfl

/-! ### Completion -/

/-- Settles O33: where the operand passes its check, each equation gives the next state. -/
theorem characterIoCompletes : Obligations.CharacterIoCompletes := by
  intro s r a v
  refine ⟨fun ha => ?out, fun rest hs => exec_inp_of_cons hs (.register r)⟩
  case out => rw [exec_out, withValue_of_means ha]

/-! ### The whole rules -/

/-- Settles O49, with the operand that the word after the opcode stands for. -/
theorem outRule : Obligations.OutRule := by
  intro s s1 h
  refine step_eq_fetching (i := .out (.ofWord (operandWord s1 1))) h rfl ?_
  rw [exec_out]
  exact withValue_eq_next fun _ => rfl

/-- Settles O50: the destination is checked before the buffer (R231, R269). -/
theorem inRule : Obligations.InRule := by
  intro s s1 h
  have hstep : ∀ {t}, exec (.inp (.ofWord (operandWord s1 1))) s1 = .next t → step s = .next (fetching 20 1 s1 t) :=
    step_eq_fetching h rfl
  refine ⟨fun hs => hstep ?_, fun ch rest hs => hstep ?_⟩
  · rw [exec_inp_of_nil hs]
    exact withDest_eq_next fun _ => rfl
  · rw [exec_inp_of_cons hs]
    exact withDest_eq_next fun _ => rfl

/-! ### The output over a step -/

/-- A RUNNING core's step emits a code only at the opcode word of out. -/
theorem coreStep_emitted {s t : State} (hrs : s.rs = .running) (h : coreStep s = .next t) :
    t.emitted = s.emitted ∨ ∃ v, t.emitted = s.emitted ++ [v] ∧ s.mem.readWord s.pc.toNat = 19 := by
  rcases coreStep_effect hrs h with ⟨i, hop, he⟩ | ⟨_, _, _, _, rfl⟩
  · refine (effect_emitted he).imp_right ?_
    rintro ⟨a, v, rfl, _, hout⟩
    exact ⟨v, hout, hop.symm⟩
  · exact .inl rfl

/-- Of the host's moves only the reset touches the codes emitted (log entry 5). -/
theorem hostEffect_emitted {m : HostMove} {s t : State} (h : HostEffect m s t) (hm : m ≠ .reset) :
    t.emitted = s.emitted := by
  cases h with
  | reset => exact absurd rfl hm
  | ignored | load | preload | start | abort | deliver => rfl

/-- Settles O54: only the step of a RUNNING core adds a code, and only the host's reset takes one back. -/
theorem outputOnlyGrows : Obligations.OutputOnlyGrows := by
  intro s t h hnoReset
  rcases step_effect h with ⟨_, _, _, rfl⟩ | ⟨rest, hturn, hrs, hcore⟩ | ⟨m, rest, hturn, he⟩
  · exact .inl rfl
  · refine (coreStep_emitted (s := { s with script := rest }) hrs hcore).imp_right ?_
    rintro ⟨v, hout, hop⟩
    exact ⟨v, hout, hrs, hop, rest, hturn⟩
  · exact .inl (hostEffect_emitted (s := { s with script := rest }) he fun hm => hnoReset rest (hm ▸ hturn))

/-! ### The line that a waiting `in` takes -/

/-- A line goes to a waiting core, and stays with the host while the core does not wait (R234, log entry 6). -/
theorem turn_of_deliver {s : State} {line : List Word} {rest : List HostMove} (h : s.script = .deliver line :: rest) :
    s.turn = if s.rs = .waitInput then .host (.deliver line) rest else .core s.script := by
  rw [State.turn, h]

/-- The state of a waiting core as the delivery of a line leaves it (R236). -/
def afterDelivery (line : List Word) (rest : List HostMove) (s : State) : State :=
  { s with inBuf := line ++ [s.cfg.lineTerm], rs := .running, delivered := s.delivered ++ [line], script := rest }

/-- A line that the buffer has room for reaches a waiting core (R234). -/
theorem step_of_deliver {s : State} {line : List Word} {rest : List HostMove} (h : s.script = .deliver line :: rest)
    (hwait : s.rs = .waitInput) (hroom : depthAdmits s.cfg.inbufDepth (line.length + 1) = true) :
    step s = .next (afterDelivery line rest s) := by
  rw [step_of_host ((turn_of_deliver h).trans (if_pos hwait))]
  exact if_pos hroom

/-- In a sound state a core waits at an in, and runs it again once a line has reached it (R236, R143). -/
theorem runsAt_afterDelivery {s : State} {line : List Word} {rest more : List HostMove} (hinv : s.Inv)
    (hwait : s.rs = .waitInput) (hturn : (afterDelivery line rest s).turn = .core more) :
    runsAt 20 (afterDelivery line rest s) { afterDelivery line rest s with script := more } := by
  obtain ⟨_, hop⟩ := hinv.waitsAtIn hwait
  have hpc : s.pc.toNat ≤ literalMax := pc_le_of_not_halted hinv (by simp [hwait])
  exact ⟨rfl, hpc, hop, more, hturn, rfl⟩

@[simp] theorem landed_inBuf (s : State) (target : Word) : (landed target s).inBuf = s.inBuf := by
  rw [← setPc_eq_landed, State.setPc_inBuf]

/-- An in with its operand in memory and a register to write to takes the first code of the buffer (R231, R237). -/
theorem step_of_in_register {s s1 : State} {ch : Word} {rest : List Word} (h : runsAt 20 s s1)
    (hs : s1.inBuf = ch :: rest) (hpc : s1.pc.toNat + 1 ≤ 32767)
    (hreg : 32768 ≤ (operandWord s1 1).toNat ∧ (operandWord s1 1).toNat ≤ 32775) :
    step s = .next (landed (s1.pc + 2) (wrote (registerOf (operandWord s1 1)) ch { s1 with inBuf := rest })) := by
  obtain ⟨_, htakes⟩ := inRule s s1 h
  rw [htakes ch rest hs, fetching, if_neg (Nat.not_lt.mpr hpc), destAt, if_pos hreg]

/-- Settles O58: the delivered line makes the core RUNNING at the in that it waits at, which takes the line's first
code. -/
theorem waitingInTakesDeliveredLine : Obligations.WaitingInTakesDeliveredLine := by
  intro s line rest hinv hscript
  refine ⟨fun hwait hroom => ⟨_, step_of_deliver hscript hwait hroom, rfl, fun more hturn hpc hlow hhigh => ?_⟩,
    fun hrs => (turn_of_deliver hscript).trans (if_neg hrs)⟩
  obtain ⟨ch, more', hline⟩ := List.exists_cons_of_ne_nil (List.concat_ne_nil s.cfg.lineTerm line)
  have htake := step_of_in_register (runsAt_afterDelivery hinv hwait hturn) hline hpc ⟨hlow, hhigh⟩
  refine ⟨_, ch, more', hline, htake, landed_inBuf _ _, ?_⟩
  rintro r rfl
  rw [landed_regs]
  exact State.getReg_setReg_self _ _ _

end Sys2Proof.Proofs
end

