-- ==== Sys2Proof/Proofs/HostControl.lean ====
section
/-! The load, preload, start and abort ports (70_reset_and_hazards.md R302, R304, R305; 60_exceptions.md R272): each of
these moves is taken as soon as it stands first, has its effect in the run states that admit it, and is ignored in the
others. -/

namespace Sys2Proof.Proofs

open Sys2Proof.Machine Sys2Proof.Claim

/-! ### A move that stands first -/

/-- A move other than a yield and a line does not wait for the core (R310, log entry 6). -/
theorem turn_of_move {s : State} {m : HostMove} {rest : List HostMove} (h : s.script = m :: rest) (hyield : m ≠ .yield)
    (hline : ∀ line, m ≠ .deliver line) : s.turn = .host m rest := by
  rw [State.turn, h]
  cases m with
  | yield => exact absurd rfl hyield
  | deliver line => exact absurd rfl (hline line)
  | reset | load | preload | start | abort => rfl

section
variable {s : State} {rest : List HostMove}

/-- A load has its effect in IDLE, with an image that fits the memory (R302). -/
theorem step_of_load {image : List Word} (h : s.script = .load image :: rest) :
    step s = .next (if s.rs = .idle ∧ image.length ≤ memWords
      then { s with mem := Memory.ofImage image, script := rest } else { s with script := rest }) :=
  step_of_host (turn_of_move h nofun nofun)

/-- A preload has its effect in IDLE (R305). -/
theorem step_of_preload {r : Reg} {v : Word} (h : s.script = .preload r v :: rest) :
    step s = .next (if s.rs = .idle then wrote r v { s with script := rest } else { s with script := rest }) :=
  step_of_host (turn_of_move h nofun nofun)

/-- A start has its effect in IDLE (R304). -/
theorem step_of_start (h : s.script = .start :: rest) :
    step s = .next (if s.rs = .idle then { s with rs := .running, script := rest } else { s with script := rest }) :=
  step_of_host (turn_of_move h nofun nofun)

/-- An abort has its effect in RUNNING and WAIT_INPUT (R272). -/
theorem step_of_abort (h : s.script = .abort :: rest) :
    step s = .next (if s.rs = .running ∨ s.rs = .waitInput
      then { s with rs := .aborted, script := rest } else { s with script := rest }) :=
  step_of_host (turn_of_move h nofun nofun)

end

/-! ### The load -/

/-- A loaded memory reads as the image does, as far as the image goes. -/
theorem readWord_ofImage_of_lt {image : List Word} {a : Nat} (h : a < image.length) :
    some ((Memory.ofImage image).readWord a) = image[a]? := by
  rw [Memory.readWord_ofImage, List.getD_eq_getElem _ _ h, List.getElem?_eq_getElem h]

/-- Past the image's end a loaded memory is zero: the padding is part of the load (R302). -/
theorem readWord_ofImage_of_le {image : List Word} {a : Nat} (h : image.length ≤ a) :
    (Memory.ofImage image).readWord a = 0 := by
  rw [Memory.readWord_ofImage, List.getD_eq_default _ _ h]

/-- Settles O56: the memory that the load leaves is that of the image. -/
theorem loadMove : Obligations.LoadMove := by
  intro s image rest hscript
  refine ⟨fun hidle hfits => ⟨Memory.ofImage image, ?loaded, fun _ => readWord_ofImage_of_lt,
    fun _ hpast _ => readWord_ofImage_of_le hpast⟩, fun hrefused => ?refused⟩
  case loaded => rw [step_of_load hscript, if_pos ⟨hidle, hfits⟩]
  case refused =>
    have hnot : ¬ (s.rs = .idle ∧ image.length ≤ memWords) := fun ⟨hidle, hfits⟩ =>
      hrefused.elim (absurd hidle) (Nat.not_lt.mpr hfits)
    rw [step_of_load hscript, if_neg hnot]

/-! ### Start, preload and abort -/

/-- In a sound state an IDLE core stands at word 0 (R57), the first that a run fetches (R304). -/
theorem fetchWord_zero_of_idle {s : State} (hinv : s.Inv) (hidle : s.rs = .idle) :
    s.fetchWord 0 = some (s.mem.readWord 0) := by
  obtain ⟨hpc, _, _⟩ := hinv.idleAsReset hidle
  rw [State.fetchWord, hpc]
  rfl

/-- Settles O57: each move by its effect in the run states that admit it, and by having none in the others. -/
theorem controlMoves : Obligations.ControlMoves := by
  intro s rest
  refine ⟨fun hscript hidle => ?started, fun _ hidle hinv => fetchWord_zero_of_idle hinv hidle,
    fun hscript hidle => ?notStarted, fun r v hscript hidle => ?preloaded, fun r v hscript hidle => ?notPreloaded,
    fun hscript hlive => ?aborted, fun hscript hlive => ?notAborted⟩
  case started => rw [step_of_start hscript, if_pos hidle]
  case notStarted => rw [step_of_start hscript, if_neg hidle]
  case preloaded => rw [step_of_preload hscript, if_pos hidle]
  case notPreloaded => rw [step_of_preload hscript, if_neg hidle]
  case aborted => rw [step_of_abort hscript, if_pos hlive]
  case notAborted => rw [step_of_abort hscript, if_neg hlive]

end Sys2Proof.Proofs
end
